-- ==== Sys2Proof/Word.lean ====
section
/-! DEFINITION. The value types of the block: bytes, ring cells, port words, channels (R6, R9, R11), and a packet as a value (R70). -/

namespace Sys2Proof

/-- A byte of the frame or of a chunk (R9). -/
abbrev Byte := BitVec 8

/-- A ring cell: `DW` = 16 bits, read as a two's complement integer (R6, R9). -/
abbrev Cell := BitVec 16

/-- A word of a command or response packet, and one float pattern: `FW` = 32 bits (R6, R9). -/
abbrev Word := BitVec 32

/-- A channel, 0 to 8, in the order ax, ay, az, gx, gy, gz, mx, my, mz (R6 `NCH`, R11). -/
abbrev Channel := Fin 9

/-- A packet on the CMD or the RSP port: a header word followed by further words (R70, R83).
"A packet has at least one word" is in the type. -/
structure Packet where
  header : Word
  body   : List Word
  deriving DecidableEq, Repr

end Sys2Proof
end

