-- ==== Sys2Proof/Syntax.lean ====
section
/-! DEFINITION. The eleven commands of 30_encoding.md R73, one constructor per row of the opcode table. -/

namespace Sys2Proof

/-- A command with the fields its format carries (R72): `ch` is header bits 23:20, a 16-bit field is header bits 15:0,
`ops` the operand words in packet order. The fields are the raw fields; `Instr.wellFormed` says which values are legal. -/
inductive Instr where
  /-- RB.PUT, format CI (R101). -/
  | rbPut (ch : BitVec 4) (value : BitVec 16)
  /-- RB.GET, format C (R102). -/
  | rbGet (ch : BitVec 4)
  /-- RB.PEEK, format C (R103). -/
  | rbPeek (ch : BitVec 4)
  /-- RB.PEEKN, format CI (R104). -/
  | rbPeekn (ch : BitVec 4) (n : BitVec 16)
  /-- RB.SIZE, format C (R105). -/
  | rbSize (ch : BitVec 4)
  /-- RB.EMPTY, format C (R106). -/
  | rbEmpty (ch : BitVec 4)
  /-- RB.RESET, format C (R107). -/
  | rbReset (ch : BitVec 4)
  /-- RB.TOARRAY, format C (R108). -/
  | rbToarray (ch : BitVec 4)
  /-- MF.FILTER, format Z with nine operand words (R131). -/
  | mfFilter (ops : List Word)
  /-- SC.ENCODE, format Z with nine operand words (R151). -/
  | scEncode (ops : List Word)
  /-- FT.SEND, format I (R171). -/
  | ftSend (max : BitVec 16)
  deriving DecidableEq, Repr

end Sys2Proof
end

