-- ==== Sys2Proof/WellFormed.lean ====
section
/-! DEFINITION. Which commands are well formed: the channel range of R80 and the operand-word count of R77. -/

namespace Sys2Proof

/-- The channel check: `ch` must be at most 8 (R80). -/
def channelOk (ch : BitVec 4) : Bool := decide (ch.toNat ≤ 8)

/-- The length check of the two commands with operand words: exactly nine (R73, R77). -/
def operandsOk (ops : List Word) : Bool := decide (ops.length = 9)

/-- A command is well formed when its packet passes every check of the decoder (R82). `max = 0` of FT.SEND is no
encoding error: it is rejected when the command runs (R82, R87). -/
def Instr.wellFormed : Instr → Bool
  | .rbPut ch _   => channelOk ch
  | .rbGet ch     => channelOk ch
  | .rbPeek ch    => channelOk ch
  | .rbPeekn ch _ => channelOk ch
  | .rbSize ch    => channelOk ch
  | .rbEmpty ch   => channelOk ch
  | .rbReset ch   => channelOk ch
  | .rbToarray ch => channelOk ch
  | .mfFilter ops => operandsOk ops
  | .scEncode ops => operandsOk ops
  | .ftSend _     => true

end Sys2Proof
end

