-- ==== Sys2Proof/Decode.lean ====
section
/-! DEFINITION. The encodings of 30_encoding.md: header fields (R71), formats (R72), the opcode map (R73), the decoder
(R82), the encoder written from the same tables, status codes and response packets (R83, R85), and the reading of
spec/opcode_table.json's bit numbering (`decodeTableWord`). -/

namespace Sys2Proof

/-! ### Header fields (R71) -/

/-- `op`, bits 31:24. -/
def opField (h : Word) : Byte := h.extractLsb' 24 8
/-- `ch`, bits 23:20. -/
def chField (h : Word) : BitVec 4 := h.extractLsb' 20 4
/-- `rsv`, bits 19:16. -/
def rsvField (h : Word) : BitVec 4 := h.extractLsb' 16 4
/-- `imm`, bits 15:0. -/
def immField (h : Word) : BitVec 16 := h.extractLsb' 0 16

/-! ### Status codes (R85) -/

/-- The eight status codes of R85. -/
inductive Status where
  /-- The command completed. -/
  | ok
  /-- Header bits 31:24 name no command (R192). -/
  | eOpcode
  /-- Wrong packet length (R193). -/
  | eLength
  /-- A must-be-zero header bit is 1 (R194). -/
  | eReserved
  /-- `ch` is 9 to 15 (R195). -/
  | eChannel
  /-- FT.SEND with `max = 0` (R196). -/
  | eChunk0
  /-- FT.SEND with `frm_valid = 0` (R197). -/
  | eNoFrame
  /-- A chunk write of this send was answered `failure` (R198). -/
  | eTxFail
  deriving DecidableEq, Repr

/-- The code of a status (R85). -/
def Status.code : Status → Byte
  | .ok        => 0x00
  | .eOpcode   => 0x01
  | .eLength   => 0x02
  | .eReserved => 0x03
  | .eChannel  => 0x04
  | .eChunk0   => 0x05
  | .eNoFrame  => 0x06
  | .eTxFail   => 0x07

/-! ### Formats and the opcode map (R72, R73) -/

/-- The four header formats of R72. -/
inductive Format where
  | z
  | c
  | ci
  | i
  deriving DecidableEq, Repr

/-- The fixed header bits of a format, column `mask` of R72. -/
def Format.mask : Format → Word
  | .z  => 0xFFFFFFFF
  | .c  => 0xFF0FFFFF
  | .ci => 0xFF0F0000
  | .i  => 0xFFFF0000

/-- Whether the format uses `ch`, column `uses ch` of R72. -/
def Format.usesChannel : Format → Bool
  | .z  => false
  | .c  => true
  | .ci => true
  | .i  => false

/-- The eleven rows of R73. -/
inductive Opcode where
  | rbPut
  | rbGet
  | rbPeek
  | rbPeekn
  | rbSize
  | rbEmpty
  | rbReset
  | rbToarray
  | mfFilter
  | scEncode
  | ftSend
  deriving DecidableEq, Repr

/-- Column `op` of R73. -/
def Opcode.byte : Opcode → Byte
  | .rbPut     => 0x01
  | .rbGet     => 0x02
  | .rbPeek    => 0x03
  | .rbPeekn   => 0x04
  | .rbSize    => 0x05
  | .rbEmpty   => 0x06
  | .rbReset   => 0x07
  | .rbToarray => 0x08
  | .mfFilter  => 0x10
  | .scEncode  => 0x20
  | .ftSend    => 0x30

/-- Column `format` of R73. -/
def Opcode.format : Opcode → Format
  | .rbPut     => .ci
  | .rbGet     => .c
  | .rbPeek    => .c
  | .rbPeekn   => .ci
  | .rbSize    => .c
  | .rbEmpty   => .c
  | .rbReset   => .c
  | .rbToarray => .c
  | .mfFilter  => .z
  | .scEncode  => .z
  | .ftSend    => .i

/-- Column `match` of R73. -/
def Opcode.matchValue : Opcode → Word
  | .rbPut     => 0x01000000
  | .rbGet     => 0x02000000
  | .rbPeek    => 0x03000000
  | .rbPeekn   => 0x04000000
  | .rbSize    => 0x05000000
  | .rbEmpty   => 0x06000000
  | .rbReset   => 0x07000000
  | .rbToarray => 0x08000000
  | .mfFilter  => 0x10000000
  | .scEncode  => 0x20000000
  | .ftSend    => 0x30000000

/-- Column `operand words` of R73. -/
def Opcode.operandWords : Opcode → Nat
  | .rbPut     => 0
  | .rbGet     => 0
  | .rbPeek    => 0
  | .rbPeekn   => 0
  | .rbSize    => 0
  | .rbEmpty   => 0
  | .rbReset   => 0
  | .rbToarray => 0
  | .mfFilter  => 9
  | .scEncode  => 9
  | .ftSend    => 0

/-- The rows in the table's order. -/
def Opcode.all : List Opcode :=
  [.rbPut, .rbGet, .rbPeek, .rbPeekn, .rbSize, .rbEmpty, .rbReset, .rbToarray, .mfFilter, .scEncode, .ftSend]

/-- "the row of rule R73 with that op" (R82). -/
def Opcode.ofByte? (b : Byte) : Option Opcode := Opcode.all.find? fun o => o.byte == b

/-- The row of a command. -/
def Instr.opcode : Instr → Opcode
  | .rbPut _ _   => .rbPut
  | .rbGet _     => .rbGet
  | .rbPeek _    => .rbPeek
  | .rbPeekn _ _ => .rbPeekn
  | .rbSize _    => .rbSize
  | .rbEmpty _   => .rbEmpty
  | .rbReset _   => .rbReset
  | .rbToarray _ => .rbToarray
  | .mfFilter _  => .mfFilter
  | .scEncode _  => .scEncode
  | .ftSend _    => .ftSend

/-! ### The decoder (R82) -/

/-- The command of a row with the fields read from a packet, the last line of R82. -/
def Opcode.instr (o : Opcode) (ch : BitVec 4) (imm : BitVec 16) (ops : List Word) : Instr :=
  match o with
  | .rbPut     => .rbPut ch imm
  | .rbGet     => .rbGet ch
  | .rbPeek    => .rbPeek ch
  | .rbPeekn   => .rbPeekn ch imm
  | .rbSize    => .rbSize ch
  | .rbEmpty   => .rbEmpty ch
  | .rbReset   => .rbReset ch
  | .rbToarray => .rbToarray ch
  | .mfFilter  => .mfFilter ops
  | .scEncode  => .scEncode ops
  | .ftSend    => .ftSend imm

/-- The checks of R82 that follow the opcode, in its order: length, reserved bits, channel range. -/
def decodeRow (o : Opcode) (p : Packet) : Except Status Instr :=
  if p.body.length ≠ o.operandWords then .error .eLength
  else if p.header &&& o.format.mask ≠ o.matchValue then .error .eReserved
  else if o.format.usesChannel = true ∧ 8 < (chField p.header).toNat then .error .eChannel
  else .ok (o.instr (chField p.header) (immField p.header) p.body)

/-- `decode(P)` of R82: total, the first check that fails names the status. -/
def decode (p : Packet) : Except Status Instr :=
  match Opcode.ofByte? (opField p.header) with
  | none => .error .eOpcode
  | some o => decodeRow o p

/-! ### The encoder -/

/-- A header from its fields (R71). -/
def mkHeader (op : Byte) (ch : BitVec 4) (imm : BitVec 16) : Word := op ++ ch ++ (0 : BitVec 4) ++ imm

/-- The `ch` field a command carries; 0 in the formats without one (R71). -/
def Instr.chBits : Instr → BitVec 4
  | .rbPut ch _   => ch
  | .rbGet ch     => ch
  | .rbPeek ch    => ch
  | .rbPeekn ch _ => ch
  | .rbSize ch    => ch
  | .rbEmpty ch   => ch
  | .rbReset ch   => ch
  | .rbToarray ch => ch
  | .mfFilter _   => 0
  | .scEncode _   => 0
  | .ftSend _     => 0

/-- The `imm` field a command carries; 0 in the formats without one (R71). -/
def Instr.immBits : Instr → BitVec 16
  | .rbPut _ v   => v
  | .rbGet _     => 0
  | .rbPeek _    => 0
  | .rbPeekn _ n => n
  | .rbSize _    => 0
  | .rbEmpty _   => 0
  | .rbReset _   => 0
  | .rbToarray _ => 0
  | .mfFilter _  => 0
  | .scEncode _  => 0
  | .ftSend m    => m

/-- The operand words a command carries (R73). -/
def Instr.words : Instr → List Word
  | .rbPut _ _    => []
  | .rbGet _      => []
  | .rbPeek _     => []
  | .rbPeekn _ _  => []
  | .rbSize _     => []
  | .rbEmpty _    => []
  | .rbReset _    => []
  | .rbToarray _  => []
  | .mfFilter ops => ops
  | .scEncode ops => ops
  | .ftSend _     => []

/-- The packet of a command (R70, R71, R73). -/
def encode (i : Instr) : Packet :=
  { header := mkHeader i.opcode.byte i.chBits i.immBits, body := i.words }

/-! ### Response packets (R83) -/

/-- A response packet: the command's `op` echoed, the status code, the count of data words, the data. -/
def responsePacket (op : Byte) (st : Status) (data : List Word) : Packet :=
  { header := op ++ st.code ++ BitVec.ofNat 16 data.length, body := data }

/-- `status`, bits 23:16 of a response header. -/
def statusField (h : Word) : Byte := h.extractLsb' 16 8
/-- `cnt`, bits 15:0 of a response header. -/
def cntField (h : Word) : BitVec 16 := h.extractLsb' 0 16

/-! ### The opcode table's bit numbering -/

/-- Word `k` of a packet whose bits are numbered from the header's bit 0 on. -/
def tableWordAt (w k : Nat) : Word := BitVec.ofNat 32 (w >>> (32 * k))

/-- How many operand words the packet of a table word has: those its opcode takes (zeros where the table gives them no
bits), and no fewer than `nbits` covers. -/
def tableOperandCount (nbits : Nat) (h : Word) : Nat :=
  Nat.max ((nbits + 31) / 32 - 1) ((Opcode.ofByte? (opField h)).elim 0 Opcode.operandWords)

/-- The packet whose bits are `w`, numbered as spec/opcode_table.json numbers them; bits from `nbits` on are 0. The words
of a packet are values and have no byte order (R55, R70). -/
def packetOfTableWord (nbits w : Nat) : Packet :=
  let bits := w % 2 ^ nbits
  let h := tableWordAt bits 0
  { header := h, body := (List.range (tableOperandCount nbits h)).map fun k => tableWordAt bits (k + 1) }

/-- The command the decoder reads from a table word; none where it refuses. -/
def decodeTableWord (nbits w : Nat) : Option Instr :=
  match decode (packetOfTableWord nbits w) with
  | .ok i => some i
  | .error _ => none

end Sys2Proof
end

