-- ==== Sys2Proof/Config.lean ====
section
/-! DEFINITION. The configuration record of 00_scope.md R7, and the free values of the model (opaque, without a body). -/

namespace Sys2Proof

/-- `MF_EVEN_RANK` (R7, R132): which of the two middle ranks an even window takes. -/
inductive EvenRank where
  | upper
  | lower
  deriving DecidableEq, Repr

/-- `CKSUM` (R7, R154, R156): the checksum of frame byte 37. -/
inductive Checksum where
  | crc8
  | add8
  deriving DecidableEq, Repr

/-- `FT_FAIL_POLICY` (R7, R174): what FT.SEND does after a failed chunk write.
`abort` is the spec's ABORT, `goOn` its CONTINUE. -/
inductive FailPolicy where
  | abort
  | goOn
  deriving DecidableEq, Repr

/-- The configuration parameters of R7, fixed for a run. `halfWindow` stands for `W`: the odd numbers 1 to 65535 that
R8 allows are exactly `2 * halfWindow + 1` for `halfWindow` 0 to 32767, so an illegal window cannot be written
(log entry 2). `PRNG` itself is the free values below (log entry 12). -/
structure Config where
  halfWindow : Fin 32768
  evenRank   : EvenRank
  prngSeed   : Nat
  cksum      : Checksum
  failPolicy : FailPolicy
  deriving DecidableEq, Repr

/-- The window size `W`, the capacity of every ring (R7). -/
def Config.w (c : Config) : Nat := 2 * c.halfWindow.val + 1

/-- The defaults of R7: W = 11, UPPER, CRC8, ABORT. `PRNG_SEED` has no default; 0 is DESIGN CHOICE (log entry 10). -/
def Config.default : Config :=
  { halfWindow := 5, evenRank := .upper, prngSeed := 0, cksum := .crc8, failPolicy := .abort }

/-- Free value: the number a draw makes its index from, for the draw's number and the generator's state. R134 puts
no law on it (log entry 12). -/
opaque Config.freeDraw : Nat → Nat → Nat

/-- Free value: the generator's next state, for the draw's number and its present state. R33 gives no update function
(log entry 13). -/
opaque Config.freePrng : Nat → Nat → Nat

/-- Free value: work cell `j` between commands, for the number of draws made so far. R32 leaves it unspecified
(log entry 14). -/
opaque Config.freeWorkCell : Nat → Nat → Cell

end Sys2Proof
end

