-- ==== Sys2Proof/Machine/State.lean ====
section
/-! DEFINITION. The state of one block, with everything R20 gives it, the ports as plain data, and the state after reset
(R38). -/

namespace Sys2Proof.Machine

open Sys2Proof

/-- One ring buffer `RB[c]` (R20 to R23): `buf` the `W` cells, `rd` the read position, `wr` the write position, `full`
the full flag. -/
structure Ring where
  buf  : List Cell
  rd   : Nat
  wr   : Nat
  full : Bool
  deriving DecidableEq, Repr

/-- The send sequencer `ft.*` (R34). -/
structure SendState where
  active : Bool
  off    : Nat
  max    : Nat
  ok     : Nat
  cnt    : Nat
  failed : Bool
  deriving DecidableEq, Repr

/-- The pivot source: `prng` is the generator's state (R33); `drawCtr` counts the draws made and is the model's own
index of the free values (log entry 12). -/
structure Gen where
  prng    : Nat
  drawCtr : Nat
  deriving DecidableEq, Repr

/-- The transport's one-bit answer to a chunk (R86). -/
inductive TxAnswer where
  | success
  | failure
  deriving DecidableEq, Repr

/-- One `TxWrite` transaction that has ended: its bytes, and the transport's answer, or none when a reset abandoned it
(R86, R222). -/
structure TxRecord where
  bytes  : List Byte
  answer : Option TxAnswer
  deriving DecidableEq, Repr

/-- The state of the machine. `rings` to `gen.prng` are the block's state of R20; `cfg` is the configuration, which no
step changes; `txOffered` says whether a chunk is on offer on the TX port and not yet answered (R86, R222; log entry 31);
the five other port fields are the agents around the block (R12): what the host will still send, for each chunk still to be
offered the transport's answer or none if it gives none (log entry 4), the reset input's samples to come, the responses and
the transactions so far. -/
structure State where
  cfg       : Config
  rings     : Vector Ring 9
  frm       : Vector Byte 38
  frmValid  : Bool
  ft        : SendState
  gen       : Gen
  wa        : List Cell
  txOffered : Bool
  cmdPort   : List Packet
  txPort    : List (Option TxAnswer)
  rstPort   : List Bool
  rspLog    : List Packet
  txLog     : List TxRecord
  deriving DecidableEq, Repr

/-- Why the machine may stop with a fault: for no reason. No access of the block can fault (R60), underflow is no error
(R199), and a rejected command is answered and leaves the block idle (R204, R206). Nothing raises a fault; safe. -/
inductive Fault where
  deriving DecidableEq, Repr

/-- Why the machine may refuse an instruction. -/
inductive Refusal where
  /-- The instruction has no meaning in the model; raised only by an arm of `exec` that is rejected by name. Every arm has
  a meaning, so nothing raises it; safe. -/
  | notModelled (mnemonic : String)
  deriving DecidableEq, Repr

/-- A ring after reset: positions 0, not full (R38). The cells' value is unspecified there; 0 is DESIGN CHOICE (log
entry 7). -/
def Ring.init (w : Nat) : Ring := { buf := List.replicate w 0, rd := 0, wr := 0, full := false }

/-- The send sequencer after reset: inactive (R38). The other five are unspecified there; the values are DESIGN CHOICE
(log entry 9), `max` the least of its range 1 to 65535 (R34). -/
def SendState.init : SendState := { active := false, off := 0, max := 1, ok := 0, cnt := 0, failed := false }

/-- A block of a given configuration after reset (R38), with nothing on its ports: as no send is in flight, no chunk is on
offer (R222). FRM and WA are unspecified by R38; 0 is
DESIGN CHOICE (log entries 8 and 11). -/
def State.ofConfig (cfg : Config) : State :=
  { cfg       := cfg
    rings     := Vector.replicate 9 (Ring.init cfg.w)
    frm       := Vector.replicate 38 0
    frmValid  := false
    ft        := SendState.init
    gen       := { prng := cfg.prngSeed, drawCtr := 0 }
    wa        := List.replicate cfg.w 0
    txOffered := false
    cmdPort   := []
    txPort    := []
    rstPort   := []
    rspLog    := []
    txLog     := [] }

/-- The machine right after reset, in the default configuration of R7. -/
def State.reset : State := State.ofConfig Config.default

end Sys2Proof.Machine
end

