-- ==== Sys2Proof/Machine/Flags.lean ====
section
/-! DEFINITION. The one-bit state elements of R29: how `RB[c].full`, `frm_valid`, `ft.active` and `ft.failed` are computed,
and the `empty` test on positions. The block has no condition codes. -/

namespace Sys2Proof.Machine

open Sys2Proof

/-- `RB[c].full` after a put left the positions at `rd` and `wr` (R23, R101). -/
def fullAfterPut (rd wr : Nat) : Bool := decide (wr = rd)

/-- `RB[c].full` after a successful get, an RB.RESET or a reset event (R23). -/
def fullCleared : Bool := false

/-- `empty(c)`: the positions coincide and the ring is not full (R27). -/
def Ring.isEmpty (r : Ring) : Bool := decide (r.rd = r.wr) && !r.full

/-- `frm_valid` after SC.ENCODE (R31). -/
def frmValidAfterEncode : Bool := true

/-- `frm_valid` after the end of FT.SEND, whatever its outcome (R175). -/
def frmValidAfterSend : Bool := false

/-- `ft.failed` after a chunk was answered (R171): set by a failure, else kept. -/
def failedAfter (failed : Bool) (a : TxAnswer) : Bool :=
  match a with
  | .success => failed
  | .failure => true

/-- The status FT.SEND ends with (R171, R198). -/
def sendStatus (failed : Bool) : Status := if failed then .eTxFail else .ok

end Sys2Proof.Machine
end

