-- ==== Sys2Proof/Machine/Operands.lean ====
section
/-! DEFINITION. Every operand form and every extension of the command set: the channel field (R80), the three readings of the
immediate (R74), the nine operand words as a raw sample (R75) and as a float sample (R76), and the result extensions of R84. -/

namespace Sys2Proof.Machine

open Sys2Proof

/-- `DEFAULT_T`, what an underflow returns (R6, R199). -/
def defaultT : Cell := 0

/-- `sext_32` of a cell: how a cell is returned (R84). -/
def sext32 (v : Cell) : Word := v.signExtend 32

/-- `zext_32` of a byte: how a frame byte is returned (R84). -/
def zext32 (b : Byte) : Word := b.setWidth 32

/-- A count, size or truth value as an unsigned 32-bit data word (R84). -/
def natWord (n : Nat) : Word := BitVec.ofNat 32 n

/-- `signed16` (R9). -/
def signed16 (v : Cell) : Int := v.toInt

/-- The channel a `ch` field names: 0 to 8; none for 9 to 15 (R80). -/
def channelOf (ch : BitVec 4) : Option Channel := if h : ch.toNat < 9 then some ⟨ch.toNat, h⟩ else none

/-- RB.PUT's reading of `imm`: a cell, taken as is (R74). -/
def cellOperand (imm : BitVec 16) : Cell := imm

/-- RB.PEEKN's reading of `imm`: an unsigned index (R74). -/
def indexOperand (imm : BitVec 16) : Nat := imm.toNat

/-- FT.SEND's reading of `imm`: the unsigned chunk size (R74). -/
def maxOperand (imm : BitVec 16) : Nat := imm.toNat

/-- Nine operand words in channel order; none for any other number of words (R75, R76, R77). -/
def nineWords (ops : List Word) : Option (Vector Word 9) :=
  if h : ops.length = 9 then some ⟨ops.toArray, by simpa using h⟩ else none

/-- The sample value in an MF.FILTER operand word: bits 15:0, the rest ignored (R75). -/
def sampleCell (w : Word) : Cell := w.extractLsb' 0 16

/-- Byte `j` of a payload word, `j = 0` the least significant (R53, R54). -/
def wordByte (w : Word) (j : Nat) : Byte := w.extractLsb' (8 * j) 8

/-- The word of four bytes, least significant first (R54, R157). -/
def wordOfBytes (b0 b1 b2 b3 : Byte) : Word := b3 ++ b2 ++ b1 ++ b0

end Sys2Proof.Machine
end

