-- ==== Sys2Proof/Machine/Ops.lean ====
section
/-! DEFINITION. The named operations over the state: one ring (R25, R26, R51, R101, R102, R107), the rings and the frame
buffer in the state, the response (R83), rejection as the one shared operation a refused command goes through (R204), the
reset event (R220, R222), and taking the next command from the CMD port (R61). -/

namespace Sys2Proof.Machine

open Sys2Proof

/-! ### One ring -/

/-- A position advanced by one: `(x + 1) mod W` (R22). -/
def advance (w x : Nat) : Nat := (x + 1) % w

/-- `size(c)` (R26). -/
def Ring.size (w : Nat) (r : Ring) : Nat :=
  if r.full then w
  else if r.rd ≤ r.wr then r.wr - r.rd
  else w + r.wr - r.rd

/-- The cell of logical index `n`: `buf[(rd + n) mod W]` (R51). A `buf` shorter than `W`, which no run reaches, reads as
`DEFAULT_T` past its end (log entry 23). -/
def Ring.cellAt (w : Nat) (r : Ring) (n : Nat) : Cell := r.buf.getD ((r.rd + n) % w) defaultT

/-- `contents(c)`: the valid elements, oldest first (R25). -/
def Ring.contents (w : Nat) (r : Ring) : List Cell := (List.range (r.size w)).map (r.cellAt w)

/-- Drops the oldest element: advances the read position (R101 eviction, R102). -/
def Ring.advanceRd (w : Nat) (r : Ring) : Ring := { r with rd := advance w r.rd }

/-- The eviction step of a put: a full ring drops its oldest element, any other is as it was (R101). -/
def Ring.evict (w : Nat) (r : Ring) : Ring := if r.full then r.advanceRd w else r

/-- Writes at the write position, advances it and computes the full flag (R101). -/
def Ring.write (w : Nat) (r : Ring) (v : Cell) : Ring :=
  { buf  := r.buf.set r.wr v
    rd   := r.rd
    wr   := advance w r.wr
    full := fullAfterPut r.rd (advance w r.wr) }

/-- The put of R101, without its response; also step 1 of MF.FILTER (R131). -/
def Ring.put (w : Nat) (r : Ring) (v : Cell) : Ring := (r.evict w).write w v

/-- The state change of a get that returns an element (R102). -/
def Ring.drop (w : Nat) (r : Ring) : Ring := { r.advanceRd w with full := fullCleared }

/-- RB.RESET on a ring: positions 0, not full, the cells as they were (R107). -/
def Ring.clear (r : Ring) : Ring := { r with rd := 0, wr := 0, full := fullCleared }

/-! ### The rings in the state -/

/-- The window size of this block. -/
def State.w (s : State) : Nat := s.cfg.w

/-- `RB[c]`. -/
def State.ring (s : State) (c : Channel) : Ring := s.rings[c.val]'c.isLt

/-- `RB[c] <- r`. -/
def State.setRing (s : State) (c : Channel) (r : Ring) : State := { s with rings := s.rings.set c.val r c.isLt }

/-- `size(c)` (R26). -/
def State.size (s : State) (c : Channel) : Nat := (s.ring c).size s.w

/-- `empty(c)` (R27). -/
def State.isEmpty (s : State) (c : Channel) : Bool := (s.ring c).isEmpty

/-- `contents(c)` (R25). -/
def State.contents (s : State) (c : Channel) : List Cell := (s.ring c).contents s.w

/-- The nine channels in order (R11). -/
def channels : List Channel := [0, 1, 2, 3, 4, 5, 6, 7, 8]

/-- One value per channel. -/
def perChannel {α : Type} (f : Channel → α) : Vector α 9 :=
  #v[f 0, f 1, f 2, f 3, f 4, f 5, f 6, f 7, f 8]

/-! ### The frame buffer -/

/-- `MemRead(addr, n)`: `n` bytes of FRM from byte offset `addr`, lowest offset first (R10). -/
def State.memRead (s : State) (addr n : Nat) : List Byte := (s.frm.toList.drop addr).take n

/-- `MemWrite(0, 38, B)`, the only write there is: all 38 bytes at once (R30, R57). -/
def State.memWriteFrame (s : State) (b : Vector Byte 38) : State := { s with frm := b }

/-! ### Responding -/

/-- `Respond(status, data)`: one response packet goes out on the RSP port (R10, R83). -/
def State.respond (s : State) (op : Byte) (st : Status) (data : List Word) : State :=
  { s with rspLog := s.rspLog ++ [responsePacket op st data] }

/-- A rejection, the one operation every refused command goes through: the response carries the status, the echoed `op`
and no data, and nothing of the block changes; the block is then idle again, so there is nothing to return from (R204,
R206). -/
def State.reject (s : State) (op : Byte) (st : Status) : State := s.respond op st []

/-- Runs `f` on the channel a `ch` field names; a command whose `ch` is 9 to 15 is rejected with `E_CHANNEL` (R195). -/
def State.withChannel {φ ρ : Type} (s : State) (op : Opcode) (ch : BitVec 4) (f : Channel → Host.Outcome State φ ρ) :
    Host.Outcome State φ ρ :=
  match channelOf ch with
  | some c => f c
  | none => .next (s.reject op.byte .eChannel)

/-- Runs `f` on nine operand words; a command with another number of them is rejected with `E_LENGTH` (R193). -/
def State.withNine {φ ρ : Type} (s : State) (op : Opcode) (ops : List Word)
    (f : Vector Word 9 → Host.Outcome State φ ρ) : Host.Outcome State φ ρ :=
  match nineWords ops with
  | some v => f v
  | none => .next (s.reject op.byte .eLength)

/-! ### Reset -/

/-- Whether the reset input is active at this step; past the list's end it is not (log entry 5). -/
def State.resetSampled (s : State) : Bool := s.rstPort.headD false

/-- The state with this step's sample of the reset input taken. -/
def State.sampleTaken (s : State) : State := { s with rstPort := s.rstPort.tail }

/-- The length of the chunk that starts at `ft.off`, the one on offer or the next: `min(ft.max, 38 - ft.off)` (R171). -/
def SendState.len (f : SendState) : Nat := min f.max (38 - f.off)

/-- The chunk on offer on the TX port and not yet answered, none when there is none: `ft.len` bytes from `ft.off` (R171).
Between the answer to a chunk and the offer of the next none is on offer, though the send is in flight (R62). -/
def State.offered (s : State) : Option (List Byte) :=
  if s.ft.active && s.txOffered then some (s.memRead s.ft.off s.ft.len) else none

/-- The transaction a reset abandons: the chunk on offer, unanswered; none when no chunk is on offer (R222). -/
def State.abandoned (s : State) : List TxRecord :=
  match s.offered with
  | some b => [{ bytes := b, answer := none }]
  | none => []

/-- The reset event (R220, R222): every element of R20 at its reset value (R38), in the same configuration; a send in
flight is abandoned without a response, no further chunk is offered, and a chunk on offer stays unanswered. What R38 leaves
unspecified gets the values of `State.ofConfig`. The ports' records and what the other agents have still to send are no state
of the block and stay. -/
def State.resetEvent (s : State) : State :=
  { State.ofConfig s.cfg with
    gen     := { prng := s.cfg.prngSeed, drawCtr := s.gen.drawCtr }
    cmdPort := s.cmdPort
    txPort  := s.txPort
    rstPort := s.rstPort
    rspLog  := s.rspLog
    txLog   := s.txLog ++ s.abandoned }

/-! ### The CMD port -/

/-- The next command of an idle block: the first packet at the CMD port, and the state with it taken (R61). -/
def State.takeCommand (s : State) : Option (Packet × State) :=
  match s.cmdPort with
  | [] => none
  | p :: rest => some (p, { s with cmdPort := rest })

/-! ### Constructing a block -/

/-- The half of a legal window, none for an illegal one: `W` must be odd and 1 to 65535 (R8). -/
def halfOfWindow (w : Nat) : Option (Fin 32768) :=
  if h : w % 2 = 1 ∧ w ≤ 65535 then some ⟨w / 2, by omega⟩ else none

/-- Constructing a block from the parameters of R7; an illegal window is refused (R8, R200). -/
def construct (w : Nat) (rank : EvenRank) (seed : Nat) (ck : Checksum) (pol : FailPolicy) : Option State :=
  match halfOfWindow w with
  | some h =>
    some (State.ofConfig { halfWindow := h, evenRank := rank, prngSeed := seed, cksum := ck, failPolicy := pol })
  | none => none

end Sys2Proof.Machine
end

