-- ==== Sys2Proof/Machine/Codec.lean ====
section
/-! DEFINITION. The sample codec of 42_sample_codec.md: the two checksums, the frame of a float sample, SC.ENCODE, and the
receiver's reference function Decode. -/

namespace Sys2Proof.Machine

open Sys2Proof

/-- `START` (R6). -/
def startMarker : Byte := 0xFF

/-- `CRC_TAPS` (R6). -/
def crcTaps : Byte := 0x8C

/-- `CRC_SEED` (R6). -/
def crcSeed : Byte := 0x00

/-- `n` inner steps of R154 on the register `crc` with `b` the rest of the byte. -/
def crcBits : Nat → Byte → Byte → Byte
  | 0, crc, _ => crc
  | n + 1, crc, b =>
    let mix := (crc ^^^ b).getLsbD 0
    let shifted := crc >>> 1
    crcBits n (if mix then shifted ^^^ crcTaps else shifted) (b >>> 1)

/-- The register after one byte: eight inner steps (R154). -/
def crcByte (crc b : Byte) : Byte := crcBits 8 crc b

/-- `CRC8(D)` (R154). -/
def crc8 (d : List Byte) : Byte := d.foldl crcByte crcSeed

/-- `ADD8(D)`, the sum of the bytes modulo 256 (R156). -/
def add8 (d : List Byte) : Byte := d.foldl (· + ·) 0

/-- `Cksum`, chosen by the parameter `CKSUM` (R154, R156). -/
def cksum (k : Checksum) (d : List Byte) : Byte :=
  match k with
  | .crc8 => crc8 d
  | .add8 => add8 d

/-- The four bytes of a payload word, least significant first (R53, R54). -/
def wordBytes (x : Word) : List Byte := [wordByte x 0, wordByte x 1, wordByte x 2, wordByte x 3]

/-- Frame bytes 0 to 36: the start marker and the nine words in channel order (R53). -/
def frameBody (f : Vector Word 9) : List Byte := startMarker :: channels.flatMap fun k => wordBytes (f[k.val]'k.isLt)

/-- `Frame(F)` as a list: the body and the checksum over it (R151, R152). -/
def frameList (k : Checksum) (f : Vector Word 9) : List Byte := frameBody f ++ [cksum k (frameBody f)]

theorem frameList_length (k : Checksum) (f : Vector Word 9) : (frameList k f).length = 38 := rfl

/-- `Frame(F)`: 38 bytes (R152). -/
def frame (k : Checksum) (f : Vector Word 9) : Vector Byte 38 :=
  ⟨(frameList k f).toArray, by simpa using frameList_length k f⟩

/-- SC.ENCODE (R151). -/
def execScEncode (ops : List Word) (s : State) : Host.Outcome State Fault Refusal :=
  s.withNine .scEncode ops fun f =>
    .next
      ({ s.memWriteFrame (frame s.cfg.cksum f) with frmValid := frmValidAfterEncode }.respond Opcode.scEncode.byte .ok
        ((frameList s.cfg.cksum f).map zext32))

/-! ### The receiver's check (R157): a reference function, no command -/

/-- The errors of `Decode` (R157). -/
inductive DecodeError where
  | badLength
  | badStart
  | checksumMismatch
  deriving DecidableEq, Repr

/-- Payload word `k` of a frame, little-endian (R157). -/
def payloadWord (b : List Byte) (k : Channel) : Word :=
  wordOfBytes (b.getD (1 + 4 * k.val) 0) (b.getD (1 + 4 * k.val + 1) 0) (b.getD (1 + 4 * k.val + 2) 0)
    (b.getD (1 + 4 * k.val + 3) 0)

/-- `Decode(B)` (R157). -/
def decodeFrame (k : Checksum) (b : List Byte) : Except DecodeError (Vector Word 9) :=
  if b.length ≠ 38 then .error .badLength
  else if b.getD 0 0 ≠ startMarker then .error .badStart
  else if cksum k (b.take 37) ≠ b.getD 37 0 then .error .checksumMismatch
  else .ok (perChannel (payloadWord b))

end Sys2Proof.Machine
end

