-- ==== Sys2Proof/Machine/Filter.lean ====
section
/-! DEFINITION. The median filter of 41_median_filter.md: rank, the selection algorithm with its draws, the value it selects,
and MF.FILTER. -/

namespace Sys2Proof.Machine

open Sys2Proof

/-- The comparison `signed16(a) <= signed16(b)` (R135). -/
def signedLe (a b : Cell) : Bool := decide (signed16 a ≤ signed16 b)

/-- `sort`: the elements in non-decreasing signed order (R136). -/
def sortSigned (a : List Cell) : List Cell := a.insertionSort fun x y => signedLe x y = true

/-- `Rank(m)`, the 0-indexed target rank (R132). -/
def rank (e : EvenRank) (m : Nat) : Nat :=
  if m % 2 = 1 then m / 2
  else
    match e with
    | .upper => m / 2
    | .lower => m / 2 - 1

/-- The generator after one draw: its state moves on by a free value (R33, log entry 13). -/
def Gen.next (g : Gen) : Gen := { prng := Config.freePrng g.drawCtr g.prng, drawCtr := g.drawCtr + 1 }

/-- `RandIndex(m)` (R134): an index below `m` made from the number `draw` gives for this draw, any number whatever;
`RandIndex(1)` is 0. The generator advances. -/
def randIndex (draw : Nat → Nat → Nat) (m : Nat) (g : Gen) : Nat × Gen :=
  (if m ≤ 1 then 0 else draw g.drawCtr g.prng % m, g.next)

/-- `Select(A, r)` (R133), quickselect: one unit of `fuel` a pass; `|A|` units are enough (R137). `A` and `r` change
from pass to pass as the rule says; the pivot itself is taken out by its index. With `A` empty or the fuel spent, which
`r < |A|` and `|A| ≤ fuel` rule out, it gives `DEFAULT_T`. -/
def select (draw : Nat → Nat → Nat) : Nat → List Cell → Nat → Gen → Cell × Gen
  | 0, _, _, g => (defaultT, g)
  | fuel + 1, a, r, g =>
    let d := randIndex draw a.length g
    let pivot := a.getD d.1 defaultT
    let others := a.eraseIdx d.1
    let l := others.filter fun x => signedLe x pivot
    let u := others.filter fun x => !signedLe x pivot
    if r < l.length then select draw fuel l r d.2
    else if r = l.length then (pivot, d.2)
    else select draw fuel u (r - l.length - 1) d.2

/-- The value MF.FILTER returns for a window, "without the algorithm": the element at position `Rank(m)` of the window
sorted in signed order (R131, R136; log entry 15). -/
def median (e : EvenRank) (window : List Cell) : Cell := (sortSigned window).getD (rank e window.length) defaultT

/-- The generator after the selection over one window: advanced by the draws `Select` makes (R131 step 3, R134). -/
def genAfterSelect (e : EvenRank) (window : List Cell) (g : Gen) : Gen :=
  (select Config.freeDraw window.length window (rank e window.length) g).2

/-- Step 1 of MF.FILTER: every channel's sample value is put into its ring (R131). -/
def State.pushSample (s : State) (ops : Vector Word 9) : State :=
  { s with rings := perChannel fun k => (s.ring k).put s.w (sampleCell (ops[k.val]'k.isLt)) }

/-- Steps 2 and 3 of MF.FILTER for the generator: nine selections in channel order (R131). -/
def State.genAfterFilter (s : State) : Gen :=
  channels.foldl (fun g k => genAfterSelect s.cfg.evenRank (s.contents k) g) s.gen

/-- The nine medians over the rings' present contents, in channel order (R131 step 4). -/
def State.medians (s : State) : List Cell := channels.map fun k => median s.cfg.evenRank (s.contents k)

/-- The work array between commands: `W` cells of unspecified value (R32, log entry 14). -/
def workCells (w : Nat) (g : Gen) : List Cell := (List.range w).map (Config.freeWorkCell g.drawCtr)

/-- Steps 2 and 3 of MF.FILTER for the hidden state: the generator advanced, the work array used (R131). -/
def State.afterSelection (s : State) : State :=
  { s with gen := s.genAfterFilter, wa := workCells s.w s.genAfterFilter }

/-- MF.FILTER (R131). -/
def execMfFilter (ops : List Word) (s : State) : Host.Outcome State Fault Refusal :=
  s.withNine .mfFilter ops fun v =>
    .next ((s.pushSample v).afterSelection.respond Opcode.mfFilter.byte .ok ((s.pushSample v).medians.map sext32))

end Sys2Proof.Machine
end

