-- ==== Sys2Proof/Machine/Ring.lean ====
section
/-! DEFINITION. The eight ring-buffer commands of 40_ring_buffer.md. -/

namespace Sys2Proof.Machine

open Sys2Proof

/-- RB.PUT (R101). -/
def execRbPut (ch : BitVec 4) (value : BitVec 16) (s : State) : Host.Outcome State Fault Refusal :=
  s.withChannel .rbPut ch fun c =>
    .next ((s.setRing c ((s.ring c).put s.w (cellOperand value))).respond Opcode.rbPut.byte .ok [])

/-- RB.GET (R102). -/
def execRbGet (ch : BitVec 4) (s : State) : Host.Outcome State Fault Refusal :=
  s.withChannel .rbGet ch fun c =>
    if s.isEmpty c then .next (s.respond Opcode.rbGet.byte .ok [sext32 defaultT])
    else
      .next ((s.setRing c ((s.ring c).drop s.w)).respond Opcode.rbGet.byte .ok [sext32 ((s.ring c).cellAt s.w 0)])

/-- RB.PEEK (R103). -/
def execRbPeek (ch : BitVec 4) (s : State) : Host.Outcome State Fault Refusal :=
  s.withChannel .rbPeek ch fun c =>
    .next (s.respond Opcode.rbPeek.byte .ok
      [sext32 (if s.isEmpty c then defaultT else (s.ring c).cellAt s.w 0)])

/-- RB.PEEKN (R104). -/
def execRbPeekn (ch : BitVec 4) (n : BitVec 16) (s : State) : Host.Outcome State Fault Refusal :=
  s.withChannel .rbPeekn ch fun c =>
    .next (s.respond Opcode.rbPeekn.byte .ok
      [sext32 (if s.size c ≤ indexOperand n then defaultT else (s.ring c).cellAt s.w (indexOperand n))])

/-- RB.SIZE (R105). -/
def execRbSize (ch : BitVec 4) (s : State) : Host.Outcome State Fault Refusal :=
  s.withChannel .rbSize ch fun c => .next (s.respond Opcode.rbSize.byte .ok [natWord (s.size c)])

/-- RB.EMPTY (R106). -/
def execRbEmpty (ch : BitVec 4) (s : State) : Host.Outcome State Fault Refusal :=
  s.withChannel .rbEmpty ch fun c =>
    .next (s.respond Opcode.rbEmpty.byte .ok [natWord (if s.isEmpty c then 1 else 0)])

/-- RB.RESET (R107). -/
def execRbReset (ch : BitVec 4) (s : State) : Host.Outcome State Fault Refusal :=
  s.withChannel .rbReset ch fun c =>
    .next ((s.setRing c (s.ring c).clear).respond Opcode.rbReset.byte .ok [])

/-- RB.TOARRAY (R108). -/
def execRbToarray (ch : BitVec 4) (s : State) : Host.Outcome State Fault Refusal :=
  s.withChannel .rbToarray ch fun c =>
    .next (s.respond Opcode.rbToarray.byte .ok ((s.contents c).map sext32))

end Sys2Proof.Machine
end

