-- ==== Sys2Proof/Machine/Transmit.lean ====
section
/-! DEFINITION. The frame transmitter of 43_frame_transmitter.md: each chunk write of FT.SEND is one step (R13); the first one
also accepts the command, the last one also ends the send (log entry 19). -/

namespace Sys2Proof.Machine

open Sys2Proof

/-- The sequencer when a send starts (R171). -/
def SendState.start (max : Nat) : SendState :=
  { active := true, off := 0, max := max, ok := 0, cnt := 0, failed := false }

/-- The block when a send starts (R171): the sequencer set, no chunk on offer yet. -/
def State.startSend (s : State) (max : Nat) : State := { s with ft := SendState.start max, txOffered := false }

/-- `ft.ok` after an answer: a success adds the chunk's length (R171). -/
def SendState.okAfter (f : SendState) (a : TxAnswer) : Nat :=
  match a with
  | .success => f.ok + f.len
  | .failure => f.ok

/-- Whether an answer leaves the loop at once: a failure under ABORT (R174). -/
def aborts (p : FailPolicy) (a : TxAnswer) : Bool :=
  match p, a with
  | .abort, .failure => true
  | .abort, .success => false
  | .goOn, .failure => false
  | .goOn, .success => false

/-- The sequencer after an answer (R171): one write more; the offset moves on unless the loop is left. -/
def SendState.answered (f : SendState) (p : FailPolicy) (a : TxAnswer) : SendState :=
  { f with
    ok     := f.okAfter a
    cnt    := f.cnt + 1
    failed := failedAfter f.failed a
    off    := if aborts p a then f.off else f.off + f.len }

/-- Whether the send ends with this answer: by abort, or because the whole frame has been offered (R171, R174). -/
def SendState.ends (f : SendState) (p : FailPolicy) (a : TxAnswer) : Bool :=
  aborts p a || decide (38 ≤ f.off + f.len)

/-- The end of a send (R171, R175, R176): the frame is discarded, the sequencer stops, the response goes out. -/
def State.finishSend (s : State) : State :=
  { s with frmValid := frmValidAfterSend, ft := { s.ft with active := false } }.respond Opcode.ftSend.byte
    (sendStatus s.ft.failed) [natWord s.ft.ok, natWord s.ft.cnt]

/-- What the transport does with the next chunk offered: its answer, or none; past the end of the list none (log entry 4). -/
def State.nextAnswer (s : State) : Option TxAnswer := s.txPort.headD none

/-- The state with that taken. -/
def State.answerTaken (s : State) : State := { s with txPort := s.txPort.tail }

/-- The chunk offered is answered: the transaction is recorded and the sequencer moves on (R171, R173). -/
def State.chunkAnswered (s : State) (a : TxAnswer) : State :=
  { s with
    txLog := s.txLog ++ [{ bytes := s.memRead s.ft.off s.ft.len, answer := some a }]
    ft    := s.ft.answered s.cfg.failPolicy a }

/-- The chunk offered is not answered: it stays on offer (R173, U2). -/
def State.chunkUnanswered (s : State) : State := { s with txOffered := true }

/-- One chunk write, one pass of the loop of R171: the next chunk is offered; the transport's answer ends the step, and with
it the send if the loop is left; without an answer the chunk stays on offer (R13, R173; log entries 4, 19). -/
def State.chunkWrite (s : State) : State :=
  match s.nextAnswer with
  | some a =>
    if s.ft.ends s.cfg.failPolicy a then (s.answerTaken.chunkAnswered a).finishSend else s.answerTaken.chunkAnswered a
  | none => s.answerTaken.chunkUnanswered

/-- A send in flight: the next chunk write; with a chunk on offer that the transport does not answer the block waits, and
nothing but a reset event ends the wait (R173, R222; U2). -/
def State.sendStep (s : State) : State := if s.txOffered then s else s.chunkWrite

/-- FT.SEND (R171): rejected with `E_CHUNK0` for `max = 0`, then with `E_NOFRAME` when no frame waits; else the send
starts and its first chunk is written. The response goes out with the last chunk write. -/
def execFtSend (max : BitVec 16) (s : State) : Host.Outcome State Fault Refusal :=
  if maxOperand max = 0 then .next (s.reject Opcode.ftSend.byte .eChunk0)
  else if s.frmValid = false then .next (s.reject Opcode.ftSend.byte .eNoFrame)
  else .next (s.startSend (maxOperand max)).chunkWrite

end Sys2Proof.Machine
end

