-- ==== Sys2Proof/Machine/Dispatch.lean ====
section
/-! DEFINITION. One arm per command: what executing a command does to the state. -/

namespace Sys2Proof.Machine

open Sys2Proof

/-- Executes a command (R73): one meaning per row of the opcode map. -/
def exec (i : Instr) (s : State) : Host.Outcome State Fault Refusal :=
  match i with
  | .rbPut ch value => Sys2Proof.Machine.execRbPut ch value s
  | .rbGet ch => Sys2Proof.Machine.execRbGet ch s
  | .rbPeek ch => Sys2Proof.Machine.execRbPeek ch s
  | .rbPeekn ch n => Sys2Proof.Machine.execRbPeekn ch n s
  | .rbSize ch => Sys2Proof.Machine.execRbSize ch s
  | .rbEmpty ch => Sys2Proof.Machine.execRbEmpty ch s
  | .rbReset ch => Sys2Proof.Machine.execRbReset ch s
  | .rbToarray ch => Sys2Proof.Machine.execRbToarray ch s
  | .mfFilter ops => Sys2Proof.Machine.execMfFilter ops s
  | .scEncode ops => Sys2Proof.Machine.execScEncode ops s
  | .ftSend max => Sys2Proof.Machine.execFtSend max s

end Sys2Proof.Machine
end

