-- ==== Sys2Proof/Machine/Step.lean ====
section
/-! DEFINITION. One step of the machine (R13), and how the host places one command where the next step takes it. -/

namespace Sys2Proof.Machine

open Sys2Proof

/-- What the block does with one packet: the decoded command is executed, a packet the decoder refuses is rejected with
that status (R82, R204). -/
def runPacket (p : Packet) (s : State) : Host.Outcome State Fault Refusal :=
  match decode p with
  | .ok i => exec i s
  | .error e => .next (s.reject (opField p.header) e)

/-- One step (R13): one whole command, or for FT.SEND one chunk write. The reset input comes first: it may act between any two
steps (R220). Else, while a send is in flight, the step is its next chunk write and no command is accepted (R61, R178). Else the next packet at the CMD port
is taken and run; with none there the block idles and keeps its state (R211). -/
def step (s : State) : Host.Outcome State Fault Refusal :=
  if s.resetSampled then .next s.sampleTaken.resetEvent
  else if s.ft.active then .next s.sampleTaken.sendStep
  else
    match s.sampleTaken.takeCommand with
    | none => .next s.sampleTaken
    | some (p, t) => runPacket p t

/-- `s` with the packet of a table word next at the CMD port, no reset at the next step, and no send in flight (a block with
one accepts no command, R178) and so no chunk on offer, so that the very next step runs exactly that packet (log entry 28). -/
def State.withFetchWord (s : State) (nbits w : Nat) : State :=
  { s with
    cmdPort   := packetOfTableWord nbits w :: s.cmdPort
    rstPort   := false :: s.rstPort
    ft        := { s.ft with active := false }
    txOffered := false }

end Sys2Proof.Machine
end

