-- ==== Sys2Proof/Machine/Asm.lean ====
section
/-! DEFINITION. The assembler notation of 30_encoding.md R87 and its pseudo-instructions R88: lines as data, the packet each
line encodes, and the reading of source text. Notation only: the block itself never sees it (D25); how
text is read is log entry 30. -/

namespace Sys2Proof.Machine

open Sys2Proof

/-- One line of R87 or R88. Integers are as written; the float literals of `sc.encodef` stand replaced by their bit patterns
(R88, `floatPattern`). -/
inductive AsmLine where
  | rbPut (c : Channel) (v : Int)
  | rbGet (c : Channel)
  | rbPeek (c : Channel)
  | rbPeekn (c : Channel) (n : Int)
  | rbSize (c : Channel)
  | rbEmpty (c : Channel)
  | rbReset (c : Channel)
  | rbToarray (c : Channel)
  | mfFilter (vs : Vector Int 9)
  | scEncode (ws : Vector Int 9)
  | ftSend (m : Int)
  | ftSendPlain
  | mfFilterc (v : Int)
  | scEncodef (patterns : Vector Word 9)
  deriving DecidableEq, Repr

/-- `ch<<20` as a header part (R87). -/
def asmCh (c : Channel) : Word := BitVec.ofNat 32 c.val <<< 20

/-- The low 16 bits of an integer as a header part or operand word: `v AND 0xFFFF` (R87, D25). -/
def asmLow16 (v : Int) : Word := (BitVec.ofInt 16 v).setWidth 32

/-- A one-word packet. -/
def headerOnly (h : Word) : Packet := { header := h, body := [] }

/-- An unsigned 16-bit operand, `0 ≤ n ≤ 65535` (R87). -/
def inImm (n : Int) : Bool := decide (0 ≤ n) && decide (n ≤ 65535)

/-- A cell operand of `rb.put`, `-32768 ≤ v ≤ 65535` (R87). -/
def inCell (v : Int) : Bool := decide (-32768 ≤ v) && decide (v ≤ 65535)

/-- `mf.filter`: each value taken modulo 2^16 and zero-extended (R87, D25). -/
def asmFilter (vs : Vector Int 9) : Packet := { header := 0x10000000, body := vs.toList.map asmLow16 }

/-- `sc.encode`: "the nine words as written" (R87). -/
def asmEncode (ws : List Word) : Packet := { header := 0x20000000, body := ws }

/-- The packet a line encodes; none for an integer outside the range R87 gives it. R87 gives the words of `sc.encode` no
range; an integer that is no 32-bit word is taken modulo 2^32, DESIGN CHOICE (log entry 30). -/
def assemble : AsmLine → Option Packet
  | .rbPut c v     => if inCell v then some (headerOnly (0x01000000 ||| asmCh c ||| asmLow16 v)) else none
  | .rbGet c       => some (headerOnly (0x02000000 ||| asmCh c))
  | .rbPeek c      => some (headerOnly (0x03000000 ||| asmCh c))
  | .rbPeekn c n   => if inImm n then some (headerOnly (0x04000000 ||| asmCh c ||| asmLow16 n)) else none
  | .rbSize c      => some (headerOnly (0x05000000 ||| asmCh c))
  | .rbEmpty c     => some (headerOnly (0x06000000 ||| asmCh c))
  | .rbReset c     => some (headerOnly (0x07000000 ||| asmCh c))
  | .rbToarray c   => some (headerOnly (0x08000000 ||| asmCh c))
  | .mfFilter vs   => some (asmFilter vs)
  | .scEncode ws   => some (asmEncode (ws.toList.map (BitVec.ofInt 32)))
  | .ftSend m      => if inImm m then some (headerOnly (0x30000000 ||| asmLow16 m)) else none
  | .ftSendPlain   => some (headerOnly (0x30000000 ||| asmLow16 20))
  | .mfFilterc v   => some (asmFilter (Vector.replicate 9 v))
  | .scEncodef ps  => some (asmEncode ps.toList)

/-! ### Source text -/

/-- A character between tokens. -/
def isBlank (c : Char) : Bool := c == ' ' || c == '\t'

/-- Without blanks at either end. -/
def trimBlanks (cs : List Char) : List Char := ((cs.dropWhile isBlank).reverse.dropWhile isBlank).reverse

/-- The pieces between occurrences of a character. -/
def splitAtChar (sep : Char) : List Char → List (List Char)
  | [] => [[]]
  | c :: cs =>
    if c == sep then [] :: splitAtChar sep cs
    else
      match splitAtChar sep cs with
      | [] => [[c]]
      | piece :: more => (c :: piece) :: more

/-- The value of a digit in the given base. -/
def digitValue (base : Nat) (c : Char) : Option Nat :=
  let d :=
    if '0' ≤ c ∧ c ≤ '9' then some (c.toNat - 48)
    else if 'a' ≤ c ∧ c ≤ 'f' then some (c.toNat - 87)
    else if 'A' ≤ c ∧ c ≤ 'F' then some (c.toNat - 55)
    else none
  d.filter fun n => n < base

/-- A non-empty run of digits, most significant first, after the value read so far. -/
def digitsValue (base : Nat) : Nat → List Char → Option Nat
  | acc, [] => some acc
  | acc, c :: cs => (digitValue base c).bind fun d => digitsValue base (acc * base + d) cs

/-- An unsigned integer: `0x` hexadecimal or decimal (R87). -/
def unsignedValue : List Char → Option Nat
  | [] => none
  | ['0', 'x'] => none
  | '0' :: 'x' :: cs => digitsValue 16 0 cs
  | cs => digitsValue 10 0 cs

/-- An integer: "decimal, optionally signed, or `0x` hexadecimal" (R87). -/
def intValue : List Char → Option Int
  | '-' :: cs => if cs.take 2 = ['0', 'x'] then none else (unsignedValue cs).map fun n => -(n : Int)
  | '+' :: cs => if cs.take 2 = ['0', 'x'] then none else (unsignedValue cs).map fun n => (n : Int)
  | cs => (unsignedValue cs).map fun n => (n : Int)

/-- A channel: `c0` to `c8`, or its name (R87). -/
def channelValue : List Char → Option Channel
  | ['c', '0'] => some 0
  | ['c', '1'] => some 1
  | ['c', '2'] => some 2
  | ['c', '3'] => some 3
  | ['c', '4'] => some 4
  | ['c', '5'] => some 5
  | ['c', '6'] => some 6
  | ['c', '7'] => some 7
  | ['c', '8'] => some 8
  | ['a', 'x'] => some 0
  | ['a', 'y'] => some 1
  | ['a', 'z'] => some 2
  | ['g', 'x'] => some 3
  | ['g', 'y'] => some 4
  | ['g', 'z'] => some 5
  | ['m', 'x'] => some 6
  | ['m', 'y'] => some 7
  | ['m', 'z'] => some 8
  | _ => none

/-- A line's one operand, a channel. -/
def channelLine (mk : Channel → AsmLine) (args : List (List Char)) : Option AsmLine :=
  match args with
  | [a] => (channelValue a).map mk
  | _ => none

/-- A line's two operands, a channel and an integer. -/
def channelIntLine (mk : Channel → Int → AsmLine) (args : List (List Char)) : Option AsmLine :=
  match args with
  | [a, b] => (channelValue a).bind fun c => (intValue b).map (mk c)
  | _ => none

/-- A line's one operand, an integer. -/
def intLine (mk : Int → AsmLine) (args : List (List Char)) : Option AsmLine :=
  match args with
  | [a] => (intValue a).map mk
  | _ => none

/-- A line's nine operands, integers. -/
def nineIntLine (mk : Vector Int 9 → AsmLine) (args : List (List Char)) : Option AsmLine :=
  match args.map intValue with
  | [some a, some b, some c, some d, some e, some f, some g, some h, some i] => some (mk #v[a, b, c, d, e, f, g, h, i])
  | _ => none

/-! ### Float literals (R88): the pattern of a decimal literal is PRESUMED, IEEE-754 from general knowledge (log entry 29) -/

/-- `2 ^ e ≤ n / d`. -/
def powLe (e : Int) (n d : Nat) : Bool := decide (d * 2 ^ e.toNat ≤ n * 2 ^ (-e).toNat)

/-- The binary exponent of `n / d`: the greatest `e` with `2 ^ e ≤ n / d`, and no less than -126. -/
def floatExp (n d : Nat) : Int :=
  let g : Int := (n.log2 : Int) - d.log2
  max (if powLe g n d then g else g - 1) (-126)

/-- The quotient rounded to the nearest integer, a tie to the even one. -/
def roundEven (a b : Nat) : Nat :=
  let q := a / b
  if b < 2 * (a % b) || (2 * (a % b) == b && q % 2 == 1) then q + 1 else q

/-- Exponent and fraction bits of `n / d`, at most those of infinity. -/
def magnitudeBits (n d : Nat) : Nat :=
  if n = 0 then 0
  else
    let e := floatExp n d
    min (2 ^ 23 * (e + 126).toNat + roundEven (n * 2 ^ (23 - e).toNat) (d * 2 ^ (e - 23).toNat)) 0x7F800000

/-- The single-precision pattern of `n / d` with the given sign. -/
def floatPattern (neg : Bool) (n d : Nat) : Word := BitVec.ofNat 32 ((if neg then 2 ^ 31 else 0) + magnitudeBits n d)

/-- An unsigned decimal float literal: digits, and a fraction after a point if there is one. -/
def unsignedFloat (neg : Bool) (cs : List Char) : Option Word :=
  match splitAtChar '.' cs with
  | [whole] => if whole = [] then none else (digitsValue 10 0 whole).map fun n => floatPattern neg n 1
  | [whole, frac] =>
    if whole = [] ∨ frac = [] then none
    else (digitsValue 10 0 (whole ++ frac)).map fun n => floatPattern neg n (10 ^ frac.length)
  | _ => none

/-- A decimal float literal, optionally signed (R88). -/
def floatValue : List Char → Option Word
  | '-' :: cs => unsignedFloat true cs
  | '+' :: cs => unsignedFloat false cs
  | cs => unsignedFloat false cs

/-- A line's nine operands, float literals. -/
def nineFloatLine (args : List (List Char)) : Option AsmLine :=
  match args.map floatValue with
  | [some a, some b, some c, some d, some e, some f, some g, some h, some i] =>
    some (.scEncodef #v[a, b, c, d, e, f, g, h, i])
  | _ => none

/-- The line of a mnemonic and its operands (R87, R88). -/
def lineOf (mnemonic : List Char) (args : List (List Char)) : Option AsmLine :=
  match mnemonic with
  | ['r', 'b', '.', 'p', 'u', 't'] => channelIntLine .rbPut args
  | ['r', 'b', '.', 'g', 'e', 't'] => channelLine .rbGet args
  | ['r', 'b', '.', 'p', 'e', 'e', 'k'] => channelLine .rbPeek args
  | ['r', 'b', '.', 'p', 'e', 'e', 'k', 'n'] => channelIntLine .rbPeekn args
  | ['r', 'b', '.', 's', 'i', 'z', 'e'] => channelLine .rbSize args
  | ['r', 'b', '.', 'e', 'm', 'p', 't', 'y'] => channelLine .rbEmpty args
  | ['r', 'b', '.', 'r', 'e', 's', 'e', 't'] => channelLine .rbReset args
  | ['r', 'b', '.', 't', 'o', 'a', 'r', 'r', 'a', 'y'] => channelLine .rbToarray args
  | ['m', 'f', '.', 'f', 'i', 'l', 't', 'e', 'r'] => nineIntLine .mfFilter args
  | ['m', 'f', '.', 'f', 'i', 'l', 't', 'e', 'r', 'c'] => intLine .mfFilterc args
  | ['s', 'c', '.', 'e', 'n', 'c', 'o', 'd', 'e'] => nineIntLine .scEncode args
  | ['s', 'c', '.', 'e', 'n', 'c', 'o', 'd', 'e', 'f'] => nineFloatLine args
  | ['f', 't', '.', 's', 'e', 'n', 'd'] => if args = [] then some .ftSendPlain else intLine .ftSend args
  | _ => none

/-- The operands of a line: separated by commas; none when nothing follows the mnemonic (R87). -/
def argsOf (cs : List Char) : List (List Char) :=
  if trimBlanks cs = [] then [] else (splitAtChar ',' cs).map trimBlanks

/-- One line of source: `some none` for a blank or comment line, `none` for one that does not read (R87). -/
def parseLine (cs : List Char) : Option (Option AsmLine) :=
  let code := trimBlanks (cs.takeWhile fun c => c != ';')
  if code = [] then some none
  else (lineOf (code.takeWhile fun c => !isBlank c) (argsOf (code.dropWhile fun c => !isBlank c))).map some

/-- A source text, one command a line (R87): the packets of its commands in order, none where a line does not read or does
not assemble. -/
def assembleText (cs : List Char) : Option (List Packet) :=
  ((splitAtChar '\n' cs).mapM parseLine).bind fun ls => (ls.filterMap id).mapM assemble

end Sys2Proof.Machine
end

