-- ==== Sys2Proof/Safety.lean ====
section
/-! DEFINITION. The terms claims are stated in: the invariants of R24 and R34, the form of the port records (R83, R85, R86), runs
of commands and of steps, and a safe run. -/

namespace Sys2Proof.Machine

open Sys2Proof

/-- The ring invariants of R24, with the `W` cells of R20: positions in range, `full` only when they coincide. -/
abbrev Ring.Inv (w : Nat) (r : Ring) : Prop :=
  r.buf.length = w ∧ r.rd < w ∧ r.wr < w ∧ (r.full = true → r.rd = r.wr)

/-- The ranges R34 gives the send sequencer's fields. -/
abbrev SendState.InRange (f : SendState) : Prop :=
  f.off ≤ 38 ∧ 1 ≤ f.max ∧ f.max ≤ 65535 ∧ f.ok ≤ 38 ∧ f.cnt ≤ 38

/-- What holds of the sequencer while a send is in flight, between two steps (R171, R172, R174): something is left to
offer, every chunk so far was full, the accepted bytes are all those written unless a write failed, and under ABORT no
write has failed yet. -/
abbrev SendState.Running (p : FailPolicy) (f : SendState) : Prop :=
  f.off < 38 ∧ f.off = f.cnt * f.max ∧ f.ok ≤ f.off ∧ (f.failed = true ↔ f.ok < f.off) ∧
    (p = .abort → f.failed = false)

/-- The invariant of the block's state: R24 for every ring, the size of the work array (R20), and the sequencer's ranges
(R34); while a send is in flight a frame waits (R34, R171); a chunk is on offer only while a send is in flight (R222). -/
abbrev State.Inv (s : State) : Prop :=
  (∀ c : Channel, (s.ring c).Inv s.w) ∧ s.wa.length = s.w ∧ s.ft.InRange ∧
    (s.ft.active = true → s.frmValid = true ∧ s.ft.Running s.cfg.failPolicy) ∧
    (s.txOffered = true → s.ft.active = true)

/-- A response packet of the form R83 and R85 allow: a known status, `cnt` the number of data words, and none for a status
other than OK and E_TXFAIL. -/
abbrev IsResponse (p : Packet) : Prop :=
  (statusField p.header).toNat ≤ 7 ∧ (cntField p.header).toNat = p.body.length ∧
    (statusField p.header ≠ Status.ok.code → statusField p.header ≠ Status.eTxFail.code → p.body = [])

/-- The form of the port records: every response as R83 and R85 say, every chunk of 1 to 38 bytes (R86). -/
abbrev State.RecordsOk (s : State) : Prop :=
  (∀ p ∈ s.rspLog, IsResponse p) ∧ (∀ r ∈ s.txLog, 1 ≤ r.bytes.length ∧ r.bytes.length ≤ 38)

/-- Two states that no observer of the ports can tell apart now (R25, R39, R240): the same configuration, the same contents of
every ring, the same frame if one waits, the same send if one is in flight, and the same ports, the chunk on offer
included. Positions, flags, cells outside the contents, an unreadable frame, an idle sequencer, the generator and the work array may differ. -/
abbrev State.LooksLike (s t : State) : Prop :=
  s.cfg = t.cfg ∧ (∀ c : Channel, s.contents c = t.contents c) ∧ s.frmValid = t.frmValid ∧
  (s.frmValid = true → s.frm = t.frm) ∧ s.ft.active = t.ft.active ∧ (s.ft.active = true → s.ft = t.ft) ∧
  s.txOffered = t.txOffered ∧ s.cmdPort = t.cmdPort ∧ s.txPort = t.txPort ∧ s.rstPort = t.rstPort ∧
  s.rspLog = t.rspLog ∧ s.txLog = t.txLog

/-- Executes commands one after another on the block, without the ports around them. -/
def execAll : List Instr → State → Host.Outcome State Fault Refusal
  | [], s => .next s
  | i :: is, s =>
    match exec i s with
    | .next t => execAll is t
    | .fault e => .fault e
    | .refused e => .refused e

/-- `n` steps of the machine. -/
def runSteps : Nat → State → Host.Outcome State Fault Refusal
  | 0, s => .next s
  | n + 1, s =>
    match step s with
    | .next t => runSteps n t
    | .fault e => .fault e
    | .refused e => .refused e

/-- A safe state: the block's invariant holds and the port records have their form. -/
abbrev State.Safe (s : State) : Prop := s.Inv ∧ s.RecordsOk

/-- The `ch` field that names a channel. -/
def chanField (c : Channel) : BitVec 4 := BitVec.ofNat 4 c.val

/-- What a put makes of a ring's contents (R101): the value appended, then the first element dropped if there are `W + 1`. -/
def listPut (w : Nat) (l : List Cell) (v : Cell) : List Cell :=
  if (l ++ [v]).length = w + 1 then (l ++ [v]).tail else l ++ [v]

/-- The bytes of chunk `i` of a send (R172). -/
def chunkBytes (f : Vector Byte 38) (max i : Nat) : List Byte := (f.toList.drop (i * max)).take (min max (38 - i * max))

/-- The number of chunk writes of a whole send (R172). -/
def chunkCount (max : Nat) : Nat := (38 + max - 1) / max

/-- What one chunk write makes of a state `s` whose send is at `ft.off`: `t` (R171, R173 to R175). Its chunk is
`min(ft.max, 38 - ft.off)` bytes of the frame. If the transport answers it, the transaction is recorded and counted, a success
adds its length to `ft.ok`, a failure sets `ft.failed`; a failure under ABORT ends the send with the offset as it is; else the
offset moves past the chunk, which at the frame's end ends the send; an end discards the frame and responds with the status,
`ft.ok` and `ft.cnt`. If not, the chunk is on offer, and nothing else changes. -/
def WritesChunk (s t : State) : Prop :=
  let len := min s.ft.max (38 - s.ft.off)
  let bytes := (s.frm.toList.drop s.ft.off).take len
  (s.txPort.headD none = none → t = { s with txPort := s.txPort.tail, txOffered := true }) ∧
  ∀ a : TxAnswer, s.txPort.headD none = some a →
    let left := a = .failure ∧ s.cfg.failPolicy = .abort
    let ok := if a = .success then s.ft.ok + len else s.ft.ok
    let failed := s.ft.failed || decide (a = .failure)
    let off := if left then s.ft.off else s.ft.off + len
    (left ∨ 38 ≤ s.ft.off + len →
      t = { s with
        ft := { active := false, off := off, max := s.ft.max, ok := ok, cnt := s.ft.cnt + 1, failed := failed }
        frmValid := false
        txPort := s.txPort.tail
        txLog := s.txLog ++ [{ bytes := bytes, answer := some a }]
        rspLog := s.rspLog ++ [responsePacket 0x30 (if failed = true then .eTxFail else .ok)
          [BitVec.ofNat 32 ok, BitVec.ofNat 32 (s.ft.cnt + 1)]] }) ∧
    (¬(left ∨ 38 ≤ s.ft.off + len) →
      t = { s with
        ft := { active := s.ft.active, off := off, max := s.ft.max, ok := ok, cnt := s.ft.cnt + 1, failed := failed }
        txPort := s.txPort.tail
        txLog := s.txLog ++ [{ bytes := bytes, answer := some a }] })

/-- The bytes accepted when chunks `i`, `i + 1`, ... are answered so (R171, R174). -/
def acceptedBytes (max : Nat) : Nat → List TxAnswer → Nat
  | _, [] => 0
  | i, .success :: as => min max (38 - i * max) + acceptedBytes max (i + 1) as
  | i, .failure :: as => acceptedBytes max (i + 1) as

/-- Whether the reset input is inactive at the next `n` steps. -/
def noResetFor (n : Nat) (s : State) : Bool := (s.rstPort.take n).all fun b => !b

/-- A byte list with bit `j` of byte `i` flipped (R155). -/
def flipBit (d : List Byte) (i j : Nat) : List Byte := d.modify i fun b => b ^^^ (1 <<< j)

end Sys2Proof.Machine
end

