-- ==== Sys2Proof/Certificates/Slice0/Obligations.lean ====
section
/-! DEFINITION. The statements about this model, each from the spec's numbered rules. -/

open Sys2Proof Sys2Proof.Machine

/-! ### Encoding (30_encoding.md) -/

/-- R71 to R73, R82: decoding the packet of any well-formed command gives the command back. -/
def Obligations.DecodeEncodeAgree : Prop :=
  ∀ i : Instr, i.wellFormed = true → decode (encode i) = .ok i

/-- R71 to R73, R82: every packet the decoder accepts is the packet of the well-formed command it gives. -/
def Obligations.DecodedPacketIsEncoding : Prop :=
  ∀ (p : Packet) (i : Instr), decode p = .ok i → i.wellFormed = true ∧ encode i = p

/-- Six packets decode to the commands they stand for: RB.PUT of P1 #3, RB.GET of R102's example, RB.PEEKN of V17, MF.FILTER
of P2 #5, SC.ENCODE with the words 1 to 9 written out from R73 and R76, FT.SEND of V41. -/
def Obligations.DecodeSamplePackets : Prop :=
  decode { header := 0x0100FFEC, body := [] } = .ok (.rbPut 0 0xFFEC) ∧
  decode { header := 0x02300000, body := [] } = .ok (.rbGet 3) ∧
  decode { header := 0x04800000, body := [] } = .ok (.rbPeekn 8 0) ∧
  decode { header := 0x10000000, body := [0x64, 0x7, 0xFFFB, 0, 0, 0, 0, 0, 0] } =
    .ok (.mfFilter [0x64, 0x7, 0xFFFB, 0, 0, 0, 0, 0, 0]) ∧
  decode { header := 0x20000000, body := [1, 2, 3, 4, 5, 6, 7, 8, 9] } = .ok (.scEncode [1, 2, 3, 4, 5, 6, 7, 8, 9]) ∧
  decode { header := 0x30000014, body := [] } = .ok (.ftSend 20)

/-- R78, R192: a packet is rejected with `E_OPCODE` exactly when its `op` is none of 0x01 to 0x08, 0x10, 0x20, 0x30, whatever
its length and other fields. -/
def Obligations.IllegalOpcodeRejected : Prop :=
  ∀ p : Packet,
    decode p = .error .eOpcode ↔ (opField p.header).toNat ∉ [1, 2, 3, 4, 5, 6, 7, 8, 0x10, 0x20, 0x30]

/-- R77, R193: a packet with a legal `op` is rejected with `E_LENGTH` exactly when it has other than 10 words (MF.FILTER,
SC.ENCODE) or other than 1 word (the other nine), whatever its other fields. -/
def Obligations.WrongLengthRejected : Prop :=
  ∀ p : Packet,
    decode p = .error .eLength ↔
      ((opField p.header).toNat ∈ [1, 2, 3, 4, 5, 6, 7, 8, 0x30] ∧ 1 + p.body.length ≠ 1) ∨
      ((opField p.header).toNat ∈ [0x10, 0x20] ∧ 1 + p.body.length ≠ 10)

/-- R79, R194: a packet of legal `op` and legal length is rejected with `E_RESERVED` exactly when `rsv` is not 0, or `ch` is
not 0 in MF.FILTER, SC.ENCODE or FT.SEND, or `imm` is not 0 in RB.GET, RB.PEEK, RB.SIZE, RB.EMPTY, RB.RESET, RB.TOARRAY,
MF.FILTER or SC.ENCODE. -/
def Obligations.ReservedBitsRejected : Prop :=
  ∀ p : Packet, decode p ≠ .error .eOpcode → decode p ≠ .error .eLength →
    (decode p = .error .eReserved ↔
      rsvField p.header ≠ 0 ∨
      (chField p.header ≠ 0 ∧ (opField p.header).toNat ∈ [0x10, 0x20, 0x30]) ∨
      (immField p.header ≠ 0 ∧ (opField p.header).toNat ∈ [2, 3, 5, 6, 7, 8, 0x10, 0x20]))

/-- R80, R195: a packet that passes the other checks is rejected with `E_CHANNEL` exactly when it is a ring-buffer command
and `ch` is 9 to 15; otherwise it is accepted. -/
def Obligations.ChannelRangeRejected : Prop :=
  ∀ p : Packet, decode p ≠ .error .eOpcode → decode p ≠ .error .eLength → decode p ≠ .error .eReserved →
    ((opField p.header).toNat ∈ [1, 2, 3, 4, 5, 6, 7, 8] ∧ 9 ≤ (chField p.header).toNat → decode p = .error .eChannel) ∧
    (¬((opField p.header).toNat ∈ [1, 2, 3, 4, 5, 6, 7, 8] ∧ 9 ≤ (chField p.header).toNat) → ∃ i, decode p = .ok i)

/-- R87, R88: every line that assembles gives a packet the decoder accepts, as the command of that line; the expansions of
R88 are those of the lines they stand for (`sc.encodef` with its literals already patterns). Operands are in
the ranges R87 gives; for `sc.encode`, of which R87 says only "the nine words as written", the clause takes every integer
modulo 2^32, which is the model's choice (log entry 30). -/
def Obligations.AssembledLinesDecode : Prop :=
  (∀ (c : Channel) (v : Int), -32768 ≤ v → v ≤ 65535 →
    (assemble (.rbPut c v)).map decode = some (.ok (.rbPut (chanField c) (BitVec.ofInt 16 v)))) ∧
  (∀ (c : Channel) (n : Nat), n ≤ 65535 →
    (assemble (.rbPeekn c n)).map decode = some (.ok (.rbPeekn (chanField c) (BitVec.ofNat 16 n)))) ∧
  (∀ c : Channel,
    (assemble (.rbGet c)).map decode = some (.ok (.rbGet (chanField c))) ∧
    (assemble (.rbPeek c)).map decode = some (.ok (.rbPeek (chanField c))) ∧
    (assemble (.rbSize c)).map decode = some (.ok (.rbSize (chanField c))) ∧
    (assemble (.rbEmpty c)).map decode = some (.ok (.rbEmpty (chanField c))) ∧
    (assemble (.rbReset c)).map decode = some (.ok (.rbReset (chanField c))) ∧
    (assemble (.rbToarray c)).map decode = some (.ok (.rbToarray (chanField c)))) ∧
  (∀ vs : Vector Int 9, (assemble (.mfFilter vs)).map decode =
    some (.ok (.mfFilter (vs.toList.map fun v => (BitVec.ofInt 16 v).setWidth 32)))) ∧
  (∀ ws : Vector Int 9, (assemble (.scEncode ws)).map decode = some (.ok (.scEncode (ws.toList.map (BitVec.ofInt 32))))) ∧
  (∀ m : Nat, m ≤ 65535 → (assemble (.ftSend m)).map decode = some (.ok (.ftSend (BitVec.ofNat 16 m)))) ∧
  (∀ ps : Vector Word 9, (assemble (.scEncodef ps)).map decode = some (.ok (.scEncode ps.toList))) ∧
  assemble .ftSendPlain = assemble (.ftSend 20) ∧
  (∀ v : Int, assemble (.mfFilterc v) = assemble (.mfFilter (Vector.replicate 9 v)))

/-! ### The step (R13, R61, R204, R220) -/

/-- R61, R82: an idle block without a reset takes the next packet; when it decodes to `i`, the step is `exec i` with that
packet and this step's reset sample taken (the ports as lists are the model's, log entries 3 and 5), and nothing else
around it. -/
def Obligations.StepRunsDecoded : Prop :=
  ∀ (s : State) (p : Packet) (rest : List Packet) (i : Instr),
    s.resetSampled = false → s.ft.active = false → s.cmdPort = p :: rest → decode p = .ok i →
      step s = exec i { s with cmdPort := rest, rstPort := s.rstPort.tail }

/-- R204: a packet the decoder refuses is answered with one response of the echoed `op`, the status and `cnt = 0`, and changes
nothing else of the state (the two port lists move on as log entries 3 and 5 say). -/
def Obligations.RejectionChangesNothing : Prop :=
  ∀ (s : State) (p : Packet) (rest : List Packet) (e : Status),
    s.resetSampled = false → s.ft.active = false → s.cmdPort = p :: rest → decode p = .error e →
      ∃ r : Packet, step s = .next { s with cmdPort := rest, rstPort := s.rstPort.tail, rspLog := s.rspLog ++ [r] } ∧
        opField r.header = opField p.header ∧ statusField r.header = e.code ∧ cntField r.header = 0 ∧ r.body = []

/-- After R80, R195: the meaning of a ring-buffer command whose `ch` is 9 to 15, run directly, answers `E_CHANNEL` and changes
nothing else. No packet decodes to such a command, so that its meaning is the decoder's rejection is the model's choice (log
entry 21); of the packet itself ChannelRangeRejected and RejectionChangesNothing speak. -/
def Obligations.BadChannelChangesNothing : Prop :=
  ∀ (s : State) (ch : BitVec 4) (v : BitVec 16), 9 ≤ ch.toNat →
    ∀ i ∈ [Instr.rbPut ch v, .rbGet ch, .rbPeek ch, .rbPeekn ch v, .rbSize ch, .rbEmpty ch, .rbReset ch, .rbToarray ch],
      exec i s = .next { s with rspLog := s.rspLog ++ [responsePacket i.opcode.byte .eChannel []] }

/-- After R60, R82, R199, R204: no step stops with a fault or a refusal. That nothing stops the machine is the model's choice
(log entry 20), and so is that an idle block without a packet (log entry 3) and a send without an answer (log entry 4) still
step: by U2 and V62 the run of the spec has no further step there. -/
def Obligations.EveryStepAnswers : Prop :=
  ∀ s : State, ∃ t, step s = .next t

/-- R83, R178: of an idle block without a reset, a step that takes a packet either appends exactly one response, of the
packet's `op`, and leaves the block idle, or it is an FT.SEND whose send is then in flight and has not answered yet. That an
FT.SEND may end in the step that takes it is the model's reading of R13 (log entry 19). -/
def Obligations.OneResponsePerCommand : Prop :=
  ∀ (s : State) (p : Packet) (rest : List Packet),
    s.resetSampled = false → s.ft.active = false → s.cmdPort = p :: rest →
      ∃ t, step s = .next t ∧ t.cmdPort = rest ∧
        ((∃ r : Packet, t.rspLog = s.rspLog ++ [r] ∧ opField r.header = opField p.header ∧ t.ft.active = false) ∨
          (t.rspLog = s.rspLog ∧ t.ft.active = true ∧ opField p.header = 0x30))

/-- R211: an idle block with no command waiting keeps its state. That it then idles, and that the reset sample is taken, is the
model's (log entries 3 and 5). -/
def Obligations.IdleKeepsState : Prop :=
  ∀ s : State, s.resetSampled = false → s.ft.active = false → s.cmdPort = [] →
    step s = .next { s with rstPort := s.rstPort.tail }

/-! ### Reset (R38, R220 to R222) -/

/-- R38: what reset leaves, in any configuration: every ring empty with positions 0, no frame, no send in flight, the
generator at its seed, and so size 0 on every channel and no FT.SEND accepted. What R38 leaves unspecified is not in it. -/
def Obligations.ResetValues : Prop :=
  ∀ cfg : Config,
    (∀ c : Channel, ((State.ofConfig cfg).ring c).rd = 0 ∧ ((State.ofConfig cfg).ring c).wr = 0 ∧
      ((State.ofConfig cfg).ring c).full = false ∧ (State.ofConfig cfg).size c = 0 ∧
      (State.ofConfig cfg).isEmpty c = true) ∧
    (State.ofConfig cfg).frmValid = false ∧ (State.ofConfig cfg).ft.active = false ∧
    (State.ofConfig cfg).gen.prng = cfg.prngSeed ∧
    (∀ max : BitVec 16, max ≠ 0 → exec (.ftSend max) (State.ofConfig cfg) =
      .next { State.ofConfig cfg with rspLog := [responsePacket 0x30 .eNoFrame []] })

/-- R220, R222: a reset event at any step empties every ring, drops the frame and abandons a send in flight: no response is
sent and no further chunk is offered; a chunk on offer is recorded unanswered, and where none is on offer (no send, or between
an answer and the next offer) nothing is recorded; the configuration and the commands still to come stay, and so do the
transport's answers to the chunks still to be offered. How the samples arrive and how the chunk and its missing answer are
recorded is the model's (log entries 5, 6, 18). -/
def Obligations.ResetEventResult : Prop :=
  ∀ s : State, s.resetSampled = true →
    ∃ t, step s = .next t ∧ t.cfg = s.cfg ∧
      (∀ c : Channel, (t.ring c).rd = 0 ∧ (t.ring c).wr = 0 ∧ (t.ring c).full = false ∧ t.contents c = []) ∧
      t.frmValid = false ∧ t.ft.active = false ∧ t.txOffered = false ∧ t.offered = none ∧ t.gen.prng = s.cfg.prngSeed ∧
      t.rspLog = s.rspLog ∧ t.cmdPort = s.cmdPort ∧ t.txPort = s.txPort ∧
      (s.ft.active = true ∧ s.txOffered = true →
        t.txLog = s.txLog ++
          [{ bytes := (s.frm.toList.drop s.ft.off).take (min s.ft.max (38 - s.ft.off)), answer := none }]) ∧
      (s.ft.active = false ∨ s.txOffered = false → t.txLog = s.txLog)

/-! ### Ring-buffer commands (40_ring_buffer.md) -/

/-- R101: RB.PUT. The ring's fields become what the pseudocode gives, its contents the old ones with the value appended and
the first element dropped if there are `W + 1`; the response is OK without data; nothing else changes. -/
def Obligations.RbPutResult : Prop :=
  ∀ (s : State) (c : Channel) (v : BitVec 16), (s.ring c).Inv s.w →
    ∃ r : Ring,
      exec (.rbPut (chanField c) v) s =
        .next { s with rings := s.rings.set c.val r c.isLt, rspLog := s.rspLog ++ [responsePacket 0x01 .ok []] } ∧
      r.rd = (if (s.ring c).full = true then ((s.ring c).rd + 1) % s.w else (s.ring c).rd) ∧
      r.buf = (s.ring c).buf.set (s.ring c).wr v ∧ r.wr = ((s.ring c).wr + 1) % s.w ∧
      (r.full = true ↔ r.wr = r.rd) ∧ r.contents s.w = listPut s.w (s.contents c) v

/-- R102: RB.GET. An empty ring answers `DEFAULT_T` = 0 and nothing changes; otherwise the oldest element is returned
sign-extended and dropped, `rd` advances and `full` is cleared. -/
def Obligations.RbGetResult : Prop :=
  ∀ (s : State) (c : Channel), (s.ring c).Inv s.w →
    (s.contents c = [] → exec (.rbGet (chanField c)) s =
      .next { s with rspLog := s.rspLog ++ [responsePacket 0x02 .ok [0]] }) ∧
    (∀ (v : Cell) (l : List Cell), s.contents c = v :: l →
      ∃ r : Ring,
        exec (.rbGet (chanField c)) s =
          .next { s with
            rings  := s.rings.set c.val r c.isLt
            rspLog := s.rspLog ++ [responsePacket 0x02 .ok [v.signExtend 32]] } ∧
        r.buf = (s.ring c).buf ∧ r.rd = ((s.ring c).rd + 1) % s.w ∧ r.wr = (s.ring c).wr ∧ r.full = false ∧
        r.contents s.w = l)

/-- R103: RB.PEEK answers the oldest element, 0 when empty, and changes nothing. -/
def Obligations.RbPeekResult : Prop :=
  ∀ (s : State) (c : Channel), (s.ring c).Inv s.w →
    exec (.rbPeek (chanField c)) s =
      .next { s with
        rspLog := s.rspLog ++ [responsePacket 0x03 .ok [((s.contents c).headD 0).signExtend 32]] }

/-- R104, R52: RB.PEEKN answers the n-th-oldest element, 0 when `n ≥ size`, and changes nothing. -/
def Obligations.RbPeeknResult : Prop :=
  ∀ (s : State) (c : Channel) (n : BitVec 16),
    exec (.rbPeekn (chanField c) n) s =
      .next { s with
        rspLog := s.rspLog ++ [responsePacket 0x04 .ok [((s.contents c).getD n.toNat 0).signExtend 32]] }

/-- R105, R26: RB.SIZE answers the number of valid elements, between 0 and `W`, as an unsigned number, and changes nothing;
the number is the one computed from the positions and the full flag. -/
def Obligations.RbSizeResult : Prop :=
  ∀ (s : State) (c : Channel), (s.ring c).Inv s.w →
    exec (.rbSize (chanField c)) s =
      .next { s with
        rspLog := s.rspLog ++ [responsePacket 0x05 .ok [BitVec.ofNat 32 (s.contents c).length]] } ∧
    (s.contents c).length ≤ s.w ∧
    ((s.contents c).length : Int) =
      (if (s.ring c).full = true then (s.w : Int)
       else if (s.ring c).rd ≤ (s.ring c).wr then ((s.ring c).wr : Int) - (s.ring c).rd
       else (s.w : Int) + (s.ring c).wr - (s.ring c).rd)

/-- R106, R27: RB.EMPTY answers 1 if the ring holds no element, else 0, and changes nothing; a ring is empty iff its size is 0,
that is iff its positions coincide and it is not full. -/
def Obligations.RbEmptyResult : Prop :=
  ∀ (s : State) (c : Channel), (s.ring c).Inv s.w →
    exec (.rbEmpty (chanField c)) s =
      .next { s with
        rspLog := s.rspLog ++ [responsePacket 0x06 .ok [if s.contents c = [] then 1 else 0]] } ∧
    (s.isEmpty c = true ↔ s.size c = 0) ∧
    (s.size c = 0 ↔ (s.ring c).rd = (s.ring c).wr ∧ (s.ring c).full = false)

/-- R107: RB.RESET sets both positions to 0 and clears `full`; the cells stay, the ring's contents are empty, nothing else
changes. -/
def Obligations.RbResetResult : Prop :=
  ∀ (s : State) (c : Channel),
    ∃ r : Ring,
      exec (.rbReset (chanField c)) s =
        .next { s with rings := s.rings.set c.val r c.isLt, rspLog := s.rspLog ++ [responsePacket 0x07 .ok []] } ∧
      r.rd = 0 ∧ r.wr = 0 ∧ r.full = false ∧ r.buf = (s.ring c).buf ∧ r.contents s.w = []

/-- R108: RB.TOARRAY answers every valid element, oldest first, and changes nothing; the response's count is the ring's
size, and word `i` is what RB.PEEKN `ch, i` answers. -/
def Obligations.RbToarrayResult : Prop :=
  ∀ (s : State) (c : Channel), (s.ring c).Inv s.w →
    ∃ data : List Word,
      exec (.rbToarray (chanField c)) s =
        .next { s with rspLog := s.rspLog ++ [responsePacket 0x08 .ok data] } ∧
      data = (s.contents c).map (BitVec.signExtend 32) ∧ data.length = s.size c ∧
      (cntField (responsePacket 0x08 .ok data).header).toNat = s.size c ∧
      ∀ i : BitVec 16, i.toNat < s.size c →
        exec (.rbPeekn (chanField c) i) s =
          .next { s with rspLog := s.rspLog ++ [responsePacket 0x04 .ok [data.getD i.toNat 0]] }

/-- R110 (a), (c): after any puts into an empty ring the contents are the last `W` values in put order, so the size is
the smaller of their number and `W`. -/
def Obligations.PutsKeepLastWindow : Prop :=
  ∀ (s : State) (c : Channel) (vs : List Cell), (s.ring c).Inv s.w → s.contents c = [] →
    ∃ t, execAll (vs.map fun v => .rbPut (chanField c) v) s = .next t ∧
      t.contents c = vs.drop (vs.length - s.w) ∧ t.size c = min vs.length s.w

/-- R110 (b): as many gets as the ring's size return its elements oldest first and leave it empty; a further get answers 0
and changes nothing else. -/
def Obligations.GetsDrainRing : Prop :=
  ∀ (s : State) (c : Channel), (s.ring c).Inv s.w →
    ∃ t, execAll (List.replicate (s.size c) (.rbGet (chanField c))) s = .next t ∧ t.isEmpty c = true ∧
      t.rspLog = s.rspLog ++ (s.contents c).map (fun v => responsePacket 0x02 .ok [v.signExtend 32]) ∧
      exec (.rbGet (chanField c)) t = .next { t with rspLog := t.rspLog ++ [responsePacket 0x02 .ok [0]] }

/-- Frame of the eight ring-buffer commands (R101 to R108): whatever next state they give, every other ring, the frame buffer
and its flag, the send sequencer, the generator, the work array, the configuration, the commands and answers to come and
the transport record are unchanged, and one response is appended. -/
def Obligations.RingCommandFrame : Prop :=
  ∀ (s t : State) (c : Channel) (v : BitVec 16),
    ∀ i ∈ [Instr.rbPut (chanField c) v, .rbGet (chanField c), .rbPeek (chanField c), .rbPeekn (chanField c) v,
        .rbSize (chanField c), .rbEmpty (chanField c), .rbReset (chanField c), .rbToarray (chanField c)],
      exec i s = .next t →
        (∀ d : Channel, d ≠ c → t.ring d = s.ring d) ∧ t.frm = s.frm ∧ t.frmValid = s.frmValid ∧ t.ft = s.ft ∧
        t.txOffered = s.txOffered ∧ t.gen = s.gen ∧ t.wa = s.wa ∧ t.cfg = s.cfg ∧ t.cmdPort = s.cmdPort ∧ t.txPort = s.txPort ∧
        t.rstPort = s.rstPort ∧ t.txLog = s.txLog ∧ ∃ r, t.rspLog = s.rspLog ++ [r]

/-- R25: "Every result a ring command or MF.FILTER returns is a function of contents(c) and the operands alone, and the effect
on contents(c) too": two states of one configuration with the same contents of every ring, whatever their positions and
invalid cells, give the same response and the same contents afterwards. -/
def Obligations.OnlyContentsMatter : Prop :=
  ∀ (s t : State) (i : Instr), i.opcode ≠ .scEncode → i.opcode ≠ .ftSend → s.Inv → t.Inv → s.cfg = t.cfg →
    (∀ c : Channel, s.contents c = t.contents c) →
      ∃ s' t' r, exec i s = .next s' ∧ exec i t = .next t' ∧ s'.rspLog = s.rspLog ++ [r] ∧ t'.rspLog = t.rspLog ++ [r] ∧
        ∀ c : Channel, s'.contents c = t'.contents c

/-! ### The median filter (41_median_filter.md) -/

/-- R132: the target rank, for every window size and both settings of MF_EVEN_RANK; it is a position of the window, and for
a full window of odd `W` it is `(W - 1) / 2` under either. -/
def Obligations.RankValues : Prop :=
  (∀ (e : EvenRank) (m : Nat), 1 ≤ m → rank e m < m) ∧
  (∀ (e : EvenRank) (m : Nat), m % 2 = 1 → rank e m = m / 2) ∧
  (∀ m : Nat, 1 ≤ m → m % 2 = 0 → rank .upper m = m / 2 ∧ rank .lower m = m / 2 - 1) ∧
  (∀ (e : EvenRank) (cfg : Config), rank e cfg.w = (cfg.w - 1) / 2)

/-- R136: whatever the draws, `Select(A, r)` returns the element at position `r` of `A` sorted in non-decreasing signed
order. -/
def Obligations.SelectIgnoresDraws : Prop :=
  ∀ (draw : Nat → Nat → Nat) (g : Gen) (a sorted : List Cell) (r : Nat), r < a.length → sorted.Perm a →
    sorted.Pairwise (fun x y => x.toInt ≤ y.toInt) → (select draw a.length a r g).1 = sorted.getD r 0

/-- R137: `Select` ends after at most as many passes, one draw each, as the window has elements, and more fuel changes
nothing: it has ended by itself. Draws are counted by the model's counter (log entry 12). -/
def Obligations.SelectPassBound : Prop :=
  ∀ (draw : Nat → Nat → Nat) (g : Gen) (a : List Cell) (r extra : Nat), r < a.length →
    g.drawCtr + 1 ≤ (select draw a.length a r g).2.drawCtr ∧
    (select draw a.length a r g).2.drawCtr ≤ g.drawCtr + a.length ∧
    select draw (a.length + extra) a r g = select draw a.length a r g

/-- R131: MF.FILTER. Every channel's value (the low half of its operand word) is put into its ring as RB.PUT does; the
response is OK with nine sign-extended words, word `k` the element at position `Rank(m)` of ring `k`'s new contents sorted
in signed order, `m` its new size. -/
def Obligations.MfFilterResult : Prop :=
  ∀ (s : State) (ops : List Word), ops.length = 9 → (∀ c : Channel, (s.ring c).Inv s.w) →
    ∃ (t : State) (data : List Word), exec (.mfFilter ops) s = .next t ∧
      t.rspLog = s.rspLog ++ [responsePacket 0x10 .ok data] ∧ data.length = 9 ∧
      ∀ k : Channel,
        (t.ring k).rd = (if (s.ring k).full = true then ((s.ring k).rd + 1) % s.w else (s.ring k).rd) ∧
        (t.ring k).buf = (s.ring k).buf.set (s.ring k).wr ((ops.getD k.val 0).extractLsb' 0 16) ∧
        (t.ring k).wr = ((s.ring k).wr + 1) % s.w ∧ ((t.ring k).full = true ↔ (t.ring k).wr = (t.ring k).rd) ∧
        t.contents k = listPut s.w (s.contents k) ((ops.getD k.val 0).extractLsb' 0 16) ∧
        ∀ sorted : List Cell, sorted.Perm (t.contents k) → sorted.Pairwise (fun x y => x.toInt ≤ y.toInt) →
          data.getD k.val 0 = (sorted.getD (rank s.cfg.evenRank (t.size k)) 0).signExtend 32

/-- R131 step 3, R136: the nine words MF.FILTER answers are those the selection algorithm finds on the rings' new contents,
under any draws whatever, lane by lane. -/
def Obligations.MfFilterReturnsSelect : Prop :=
  ∀ (s : State) (ops : List Word) (draw : Nat → Nat → Nat) (g : Gen), ops.length = 9 →
    (∀ c : Channel, (s.ring c).Inv s.w) →
      ∃ t, exec (.mfFilter ops) s = .next t ∧
        t.rspLog = s.rspLog ++ [responsePacket 0x10 .ok (channels.map fun k =>
          ((select draw (t.contents k).length (t.contents k) (rank s.cfg.evenRank (t.size k)) g).1).signExtend 32)]

/-- R236: MF.FILTER makes at least one draw a lane and at most `9 * W`, by the model's counter of draws (log entry 12). -/
def Obligations.MfFilterDrawBound : Prop :=
  ∀ (s : State) (ops : List Word), ops.length = 9 → (∀ c : Channel, (s.ring c).Inv s.w) →
    ∃ t, exec (.mfFilter ops) s = .next t ∧ s.gen.drawCtr + 9 ≤ t.gen.drawCtr ∧
      t.gen.drawCtr ≤ s.gen.drawCtr + 9 * s.w

/-- Frame of MF.FILTER (R131, R138): the frame buffer, its flag, the send sequencer, the configuration and the ports are
unchanged. An operand list of another length, to which no packet decodes, gets `E_LENGTH` and changes nothing else: that its
meaning is the decoder's rejection is the model's choice (log entry 21). -/
def Obligations.MfFilterFrame : Prop :=
  ∀ (s t : State) (ops : List Word), exec (.mfFilter ops) s = .next t →
    t.frm = s.frm ∧ t.frmValid = s.frmValid ∧ t.ft = s.ft ∧ t.cfg = s.cfg ∧ t.cmdPort = s.cmdPort ∧
    t.txOffered = s.txOffered ∧ t.txPort = s.txPort ∧ t.rstPort = s.rstPort ∧ t.txLog = s.txLog ∧
    (∃ r, t.rspLog = s.rspLog ++ [r]) ∧
    (ops.length ≠ 9 → t = { s with rspLog := s.rspLog ++ [responsePacket 0x10 .eLength []] })

/-- R139, R40: any number of MF.FILTER commands on a block whose rings are all empty leave in every ring the last `W` samples
of its channel, so all nine sizes are the smaller of that number and `W`. -/
def Obligations.FilterWindowIsLastSamples : Prop :=
  ∀ (s : State) (samples : List (Vector Word 9)), (∀ c : Channel, (s.ring c).Inv s.w) →
    (∀ c : Channel, s.contents c = []) →
      ∃ t, execAll (samples.map fun x => .mfFilter x.toList) s = .next t ∧
        ∀ c : Channel,
          t.contents c = (samples.map fun x => (x[c.val]'c.isLt).extractLsb' 0 16).drop (samples.length - s.w) ∧
          t.size c = min samples.length s.w

/-- R140 (a): when every valid element of every ring is `v` (in particular when the rings are empty) and every operand's low
half is `v`, MF.FILTER answers `v` on every channel, and every valid element is `v` again. -/
def Obligations.ConstantInputPassesThrough : Prop :=
  ∀ (s : State) (v : Cell) (ops : List Word), ops.length = 9 → (∀ x ∈ ops, x.extractLsb' 0 16 = v) →
    (∀ c : Channel, (s.ring c).Inv s.w) → (∀ c : Channel, ∀ x ∈ s.contents c, x = v) →
      ∃ t, exec (.mfFilter ops) s = .next t ∧
        t.rspLog = s.rspLog ++ [responsePacket 0x10 .ok (List.replicate 9 (v.signExtend 32))] ∧
        ∀ c : Channel, ∀ x ∈ t.contents c, x = v

/-- R140 (c): a value that is the single largest or the single smallest of a window of odd size above 1 is never its
median. -/
def Obligations.OutlierIsNeverMedian : Prop :=
  ∀ (e : EvenRank) (before after : List Cell) (x : Cell), (before ++ x :: after).length % 2 = 1 →
    1 < (before ++ x :: after).length →
      ((∀ y ∈ before ++ after, y.toInt < x.toInt) ∨ (∀ y ∈ before ++ after, x.toInt < y.toInt)) →
        median e (before ++ x :: after) ≠ x

/-! ### The sample codec (42_sample_codec.md) -/

/-- R151, R53, R54: SC.ENCODE. The frame buffer becomes the start marker, the nine words little-endian in channel order and
the checksum over the first 37 bytes; `frm_valid` is set; the response is OK with the 38 bytes zero-extended; nothing else
changes. -/
def Obligations.ScEncodeResult : Prop :=
  ∀ (s : State) (ops : List Word), ops.length = 9 →
    ∃ b : Vector Byte 38,
      exec (.scEncode ops) s =
        .next { s with
          frm      := b
          frmValid := true
          rspLog   := s.rspLog ++ [responsePacket 0x20 .ok (b.toList.map (BitVec.setWidth 32))] } ∧
      b[0] = 0xFF ∧
      (∀ (k : Channel) (j : Fin 4),
        b.toList.getD (1 + 4 * k.val + j.val) 0 = (ops.getD k.val 0).extractLsb' (8 * j.val) 8) ∧
      b[37] = cksum s.cfg.cksum (b.toList.take 37)

/-- Frame of SC.ENCODE for every operand list (R151): the rings, the generator, the work array, the send sequencer, the
configuration and the ports are unchanged. An operand list of another length, to which no packet decodes, gets `E_LENGTH` and
changes nothing else: that its meaning is the decoder's rejection is the model's choice (log entry 21). -/
def Obligations.ScEncodeFrame : Prop :=
  ∀ (s t : State) (ops : List Word), exec (.scEncode ops) s = .next t →
    t.rings = s.rings ∧ t.gen = s.gen ∧ t.wa = s.wa ∧ t.ft = s.ft ∧ t.cfg = s.cfg ∧ t.cmdPort = s.cmdPort ∧
    t.txOffered = s.txOffered ∧ t.txPort = s.txPort ∧ t.rstPort = s.rstPort ∧ t.txLog = s.txLog ∧
    (∃ r, t.rspLog = s.rspLog ++ [r]) ∧
    (ops.length ≠ 9 → t = { s with rspLog := s.rspLog ++ [responsePacket 0x20 .eLength []] })

/-- R157, R159: `Decode` accepts a byte list exactly when it is the frame of the sample it returns; so every sample, finite or
not, makes the round trip. -/
def Obligations.DecodeAcceptsExactlyFrames : Prop :=
  ∀ (k : Checksum) (b : List Byte) (f : Vector Word 9), decodeFrame k b = .ok f ↔ b = frameList k f

/-- R157: the errors of `Decode` and their order. -/
def Obligations.DecodeErrorOrder : Prop :=
  ∀ (k : Checksum) (b : List Byte),
    (decodeFrame k b = .error .badLength ↔ b.length ≠ 38) ∧
    (decodeFrame k b = .error .badStart ↔ b.length = 38 ∧ b.head? ≠ some 0xFF) ∧
    (decodeFrame k b = .error .checksumMismatch ↔
      b.length = 38 ∧ b.head? = some 0xFF ∧ b.getLast? ≠ some (cksum k (b.take 37)))

/-- R155: the CRC of a list followed by its CRC is 0. -/
def Obligations.CrcResidueIsZero : Prop :=
  ∀ d : List Byte, crc8 (d ++ [crc8 d]) = 0

/-- R155: `CRC8` is linear over XOR for inputs of equal length. -/
def Obligations.CrcIsLinear : Prop :=
  ∀ x y : List Byte, x.length = y.length → crc8 (List.zipWith (· ^^^ ·) x y) = crc8 x ^^^ crc8 y

/-- R155, R156: flipping any single bit of the bytes under the checksum changes it, under either setting of CKSUM. -/
def Obligations.SingleBitFlipDetected : Prop :=
  ∀ (k : Checksum) (d : List Byte) (i j : Nat), i < d.length → j < 8 → cksum k (flipBit d i j) ≠ cksum k d

/-! ### The frame transmitter (43_frame_transmitter.md) -/

/-- R196, R197: FT.SEND with `max = 0` is rejected with `E_CHUNK0`, checked first; otherwise without a frame it is rejected
with `E_NOFRAME`; either way nothing else changes. -/
def Obligations.FtSendRejections : Prop :=
  ∀ (s : State) (max : BitVec 16),
    (max = 0 → exec (.ftSend max) s = .next { s with rspLog := s.rspLog ++ [responsePacket 0x30 .eChunk0 []] }) ∧
    (max ≠ 0 → s.frmValid = false →
      exec (.ftSend max) s = .next { s with rspLog := s.rspLog ++ [responsePacket 0x30 .eNoFrame []] })

/-- R171, R13: FT.SEND with a chunk size and a waiting frame starts a send: the sequencer is set as the pseudocode says, and in
the same step the first chunk is written. That the first step holds both is the model's reading of R13 (log entry 19), and
that what the transport does with the chunk is the first of a list is its choice (log entry 4). -/
def Obligations.FtSendStarts : Prop :=
  ∀ (s : State) (max : BitVec 16), max ≠ 0 → s.frmValid = true →
    ∃ t, exec (.ftSend max) s = .next t ∧
      WritesChunk { s with
        ft        := { active := true, off := 0, max := max.toNat, ok := 0, cnt := 0, failed := false }
        txOffered := false } t

/-- R13, R171, R173 to R175: while a send is in flight, without a reset and with no chunk on offer, a step is one chunk write.
What the transport does with the chunk is the first of a list, and without an answer the chunk stays on offer (log entry 4);
that the last chunk's step also ends the send is the model's reading of R13 (log entry 19). -/
def Obligations.SendStepResult : Prop :=
  ∀ s : State, s.resetSampled = false → s.ft.active = true → s.txOffered = false →
    ∃ t, step s = .next t ∧ WritesChunk { s with rstPort := s.rstPort.tail } t

/-- R172: the chunks of a send, for every chunk size 1 to 65535: joined in order they are the frame; all but the last have
length `max`, the last has `38 - (n - 1) * max`, between 1 and `max`. -/
def Obligations.ChunksJoinToFrame : Prop :=
  ∀ (f : Vector Byte 38) (max : Nat), 1 ≤ max →
    (List.range (chunkCount max)).flatMap (chunkBytes f max) = f.toList ∧
    (∀ i, i + 1 < chunkCount max → (chunkBytes f max i).length = max) ∧
    (chunkBytes f max (chunkCount max - 1)).length = 38 - (chunkCount max - 1) * max ∧
    1 ≤ (chunkBytes f max (chunkCount max - 1)).length ∧ (chunkBytes f max (chunkCount max - 1)).length ≤ max

/-- R13, R171, R172, R174, R176: a whole send. An idle block with a waiting frame takes an FT.SEND; an answer comes for each
chunk and no reset meanwhile, and either the policy is CONTINUE or every answer a success: after exactly
`n = (38 + max - 1) div max` steps, one for each chunk write, the send has ended; the transactions made are the chunks of R172
in order with their answers; the response is `E_TXFAIL` if some answer was a failure, else OK, with the accepted bytes and
`n`; the frame is discarded. That acceptance and end take no step of their own is the model's reading of R13 (log entry 19);
the packets, the answers and the reset samples as lists are its choice (log entries 3, 4, 5). -/
def Obligations.WholeSendRuns : Prop :=
  ∀ (s : State) (p : Packet) (cmds : List Packet) (m : BitVec 16) (as : List TxAnswer) (rest : List (Option TxAnswer)),
    s.ft.active = false → s.cmdPort = p :: cmds → decode p = .ok (.ftSend m) → m ≠ 0 → s.frmValid = true →
    as.length = chunkCount m.toNat → s.txPort = as.map some ++ rest → noResetFor (chunkCount m.toNat) s = true →
    (s.cfg.failPolicy = .goOn ∨ ∀ a ∈ as, a = .success) →
      runSteps (chunkCount m.toNat) s =
        .next { s with
          ft        := { active := false, off := 38, max := m.toNat, ok := acceptedBytes m.toNat 0 as,
                         cnt := chunkCount m.toNat, failed := decide (TxAnswer.failure ∈ as) }
          frmValid  := false
          txOffered := false
          cmdPort   := cmds
          txPort    := rest
          rstPort   := s.rstPort.drop (chunkCount m.toNat)
          txLog     := s.txLog ++
            (List.range (chunkCount m.toNat)).map fun i => { bytes := chunkBytes s.frm m.toNat i, answer := as[i]? }
          rspLog    := s.rspLog ++ [responsePacket 0x30 (if TxAnswer.failure ∈ as then .eTxFail else .ok)
            [BitVec.ofNat 32 (acceptedBytes m.toNat 0 as), BitVec.ofNat 32 (chunkCount m.toNat)]] } ∧
      ((∀ a ∈ as, a = .success) ↔ acceptedBytes m.toNat 0 as = 38)

/-- R13, R174, R176: under ABORT a send whose first failure answers chunk number `j` ends there, with step `j + 1`: `j + 1`
writes were made, `j * max` bytes accepted, the status is `E_TXFAIL`, the frame is discarded and no later chunk is offered.
Steps are counted as log entry 19 says; the packets, the answers and the reset samples are lists (log entries 3, 4, 5). -/
def Obligations.AbortedSendRuns : Prop :=
  ∀ (s : State) (p : Packet) (cmds : List Packet) (m : BitVec 16) (j : Nat) (rest : List (Option TxAnswer)),
    s.ft.active = false → s.cmdPort = p :: cmds → decode p = .ok (.ftSend m) → m ≠ 0 → s.frmValid = true →
    j < chunkCount m.toNat → s.txPort = List.replicate j (some .success) ++ some .failure :: rest →
    noResetFor (j + 1) s = true → s.cfg.failPolicy = .abort →
      runSteps (j + 1) s =
        .next { s with
          ft        := { active := false, off := j * m.toNat, max := m.toNat, ok := j * m.toNat, cnt := j + 1,
                         failed := true }
          frmValid  := false
          txOffered := false
          cmdPort   := cmds
          txPort    := rest
          rstPort   := s.rstPort.drop (j + 1)
          txLog     := s.txLog ++
            ((List.range j).map fun i => { bytes := chunkBytes s.frm m.toNat i, answer := some .success }) ++
            [{ bytes := chunkBytes s.frm m.toNat j, answer := some .failure }]
          rspLog    := s.rspLog ++ [responsePacket 0x30 .eTxFail [BitVec.ofNat 32 (j * m.toNat), BitVec.ofNat 32 (j + 1)]] }

/-- R176: whenever a send ends other than by a reset, in a later step or already in the one that accepts it, status OK comes
with 38 accepted bytes and the full number of writes, and `E_TXFAIL` with fewer than 38; under ABORT then the accepted bytes
are those of the writes before the last. The response comes with that step (log entry 19). -/
def Obligations.SendStatusMeaning : Prop :=
  ∀ s t : State, s.Inv →
    ((s.resetSampled = false ∧ s.ft.active = true ∧ step s = .next t) ∨
      ∃ max : BitVec 16, max ≠ 0 ∧ s.frmValid = true ∧ exec (.ftSend max) s = .next t) →
    t.ft.active = false →
    (t.ft.failed = false → t.ft.ok = 38 ∧ t.ft.cnt = chunkCount t.ft.max) ∧
    (t.ft.failed = true → t.ft.ok < 38 ∧
      (s.cfg.failPolicy = .abort → t.ft.ok = (t.ft.cnt - 1) * t.ft.max) ∧
      (s.cfg.failPolicy = .goOn → t.ft.cnt = chunkCount t.ft.max)) ∧
    t.rspLog = s.rspLog ++ [responsePacket 0x30 (if t.ft.failed = true then .eTxFail else .ok)
      [BitVec.ofNat 32 t.ft.ok, BitVec.ofNat 32 t.ft.cnt]]

/-- R61, R173, R178: while a send is in flight and no reset comes, no packet is taken, no ring changes and the frame cannot
change; and while the transport gives no answer to the chunk on offer the step changes nothing but the reset sample taken (log
entries 4 and 5). -/
def Obligations.NothingElseDuringSend : Prop :=
  ∀ s : State, s.resetSampled = false → s.ft.active = true →
    (∃ t, step s = .next t ∧ t.cmdPort = s.cmdPort ∧ t.rings = s.rings ∧ t.frm = s.frm ∧ t.gen = s.gen ∧ t.wa = s.wa) ∧
    (s.txOffered = true → step s = .next { s with rstPort := s.rstPort.tail })

/-- Frame of the meaning of FT.SEND for every operand (R13, R171, R204): the rings, the bytes of the frame buffer, the
generator, the work array, the configuration and the commands and reset samples to come are unchanged; a rejected one also
leaves the flag, the sequencer and the TX port; an accepted one takes what the transport does with one chunk, adds at most one
transaction, and clears the flag and responds only if the send is then ended. That an accepted one writes exactly its first
chunk, and that the send may end in it, is the model's reading of R13: acceptance belongs to the first chunk's step, the end to
the last one's (log entry 19); that what the transport does with the chunk is the first of a list is its choice (log entry 4). -/
def Obligations.FtSendFrame : Prop :=
  ∀ (s t : State) (max : BitVec 16), exec (.ftSend max) s = .next t →
    t.rings = s.rings ∧ t.frm = s.frm ∧ t.gen = s.gen ∧ t.wa = s.wa ∧ t.cfg = s.cfg ∧ t.cmdPort = s.cmdPort ∧
    t.rstPort = s.rstPort ∧
    (max = 0 ∨ s.frmValid = false →
      t.frmValid = s.frmValid ∧ t.ft = s.ft ∧ t.txOffered = s.txOffered ∧ t.txPort = s.txPort ∧ t.txLog = s.txLog) ∧
    (max ≠ 0 ∧ s.frmValid = true →
      t.txPort = s.txPort.tail ∧ (t.txLog = s.txLog ∨ ∃ r, t.txLog = s.txLog ++ [r]) ∧
      (t.ft.active = true → t.frmValid = true ∧ t.rspLog = s.rspLog))

/-! ### The whole machine -/

/-- R8, R200: a block can be constructed exactly for odd `W` from 1 to 65535, and then has that window and the other
parameters as given. -/
def Obligations.ConstructionNeedsOddWindow : Prop :=
  ∀ (w : Nat) (e : EvenRank) (seed : Nat) (k : Checksum) (p : FailPolicy),
    ((construct w e seed k p).isSome = true ↔ w % 2 = 1 ∧ 1 ≤ w ∧ w ≤ 65535) ∧
    ∀ s, construct w e seed k p = some s →
      s.w = w ∧ s.cfg.evenRank = e ∧ s.cfg.prngSeed = seed ∧ s.cfg.cksum = k ∧ s.cfg.failPolicy = p

/-- The invariant holds after reset, in every configuration. -/
def Obligations.ResetStateSafe : Prop :=
  ∀ cfg : Config, (State.ofConfig cfg).Safe

/-- R24, R34, R83, R85, R86: every step keeps the block's invariant and the form of the port records: positions in range,
`full` only when they coincide, `W` cells in every ring, the sequencer in range, a chunk on offer only in a send
in flight; every response has a known status and counts its data words; every chunk has 1 to 38 bytes. From any state, no step
changes the configuration (R37). -/
def Obligations.StepKeepsSafe : Prop :=
  ∀ s t : State, step s = .next t → (s.Safe → t.Safe) ∧ t.cfg = s.cfg

/-- R30, R31, R29: without a reset, a step changes the frame buffer only when it runs an SC.ENCODE, sets `frm_valid` only then,
and clears it only at the end of a send, one in flight or one that ends with its first chunk, in the step that accepts it (log
entry 19). -/
def Obligations.OnlyEncodeWritesFrame : Prop :=
  ∀ s t : State, s.resetSampled = false → step s = .next t →
    (t.frm ≠ s.frm ∨ (s.frmValid = false ∧ t.frmValid = true) →
      s.ft.active = false ∧ ∃ p rest ops, s.cmdPort = p :: rest ∧ decode p = .ok (.scEncode ops)) ∧
    (s.frmValid = true ∧ t.frmValid = false → t.ft.active = false ∧
      (s.ft.active = true ∨ ∃ p rest max, s.cmdPort = p :: rest ∧ decode p = .ok (.ftSend max)))

/-- R39, R25, R240: what is unspecified or hidden is unobservable. Two states that meet the invariant and look alike to every
observer step to states that look alike: the same responses, the same transactions, the same contents, whatever the
positions, the cells outside the contents, an unreadable frame, an idle sequencer, the generator and the work array. -/
def Obligations.HiddenStateIsUnobservable : Prop :=
  ∀ s t : State, s.Inv → t.Inv → s.LooksLike t →
    ∃ s' t', step s = .next s' ∧ step t = .next t' ∧ s'.LooksLike t'

/-- R33, R136: the generator and the work array are hidden: two states that differ only in them step to states that differ
only in them; no response, no ring and no chunk depends on them. -/
def Obligations.GeneratorIsHidden : Prop :=
  ∀ (s : State) (g : Gen) (wa : List Cell),
    ∃ t u, step s = .next t ∧ step { s with gen := g, wa := wa } = .next u ∧ u = { t with gen := u.gen, wa := u.wa }
end

