-- ==== Sys2Proof/Laws/Decode.lean ====
section
/-! SUPPORT. Header fields of built headers, headers from their fields, and the mask check in terms of fields. -/

namespace Sys2Proof

/-! ### Headers from fields and back -/

/-- Bit `i` of a header built from its fields. -/
theorem mkHeader_bit (a : Byte) (b : BitVec 4) (c : BitVec 16) (i : Nat) :
    (mkHeader a b c).getLsbD i =
      if i < 16 then c.getLsbD i else if i < 20 then false else if i < 24 then b.getLsbD (i - 20)
      else a.getLsbD (i - 24) := by
  have : mkHeader a b c = (a ++ b ++ (0 : BitVec 4) ++ c : BitVec (8 + 4 + 4 + 16)) := rfl
  rw [this]
  simp only [BitVec.getLsbD_append]
  split_ifs <;> first | rfl | omega | simp

@[simp] theorem opField_mkHeader (a : Byte) (b : BitVec 4) (c : BitVec 16) : opField (mkHeader a b c) = a := by
  apply BitVec.eq_of_getLsbD_eq
  intro i hi
  rw [opField, BitVec.getLsbD_extractLsb', mkHeader_bit]
  simp only [hi, decide_true, Bool.true_and]
  split_ifs <;> first | omega | (congr 1; omega)

@[simp] theorem chField_mkHeader (a : Byte) (b : BitVec 4) (c : BitVec 16) : chField (mkHeader a b c) = b := by
  apply BitVec.eq_of_getLsbD_eq
  intro i hi
  rw [chField, BitVec.getLsbD_extractLsb', mkHeader_bit]
  simp only [hi, decide_true, Bool.true_and]
  split_ifs <;> first | omega | (congr 1; omega)

@[simp] theorem rsvField_mkHeader (a : Byte) (b : BitVec 4) (c : BitVec 16) : rsvField (mkHeader a b c) = 0 := by
  apply BitVec.eq_of_getLsbD_eq
  intro i hi
  rw [rsvField, BitVec.getLsbD_extractLsb', mkHeader_bit]
  simp only [hi, decide_true, Bool.true_and]
  split_ifs <;> first | omega | simp

@[simp] theorem immField_mkHeader (a : Byte) (b : BitVec 4) (c : BitVec 16) : immField (mkHeader a b c) = c := by
  apply BitVec.eq_of_getLsbD_eq
  intro i hi
  rw [immField, BitVec.getLsbD_extractLsb', mkHeader_bit]
  simp only [hi, decide_true, Bool.true_and]
  split_ifs <;> first | omega | (congr 1; omega)

/-- A header is its four fields (R71). -/
theorem header_ext {h k : Word} (h1 : opField h = opField k) (h2 : chField h = chField k)
    (h3 : rsvField h = rsvField k) (h4 : immField h = immField k) : h = k := by
  apply BitVec.eq_of_getLsbD_eq
  intro i hi
  have key : ∀ (s n : Nat), h.extractLsb' s n = k.extractLsb' s n → s ≤ i → i < s + n → h.getLsbD i = k.getLsbD i := by
    intro s n he hs hn
    have := congrArg (fun x => x.getLsbD (i - s)) he
    simp only [BitVec.getLsbD_extractLsb', show i - s < n by omega, decide_true, Bool.true_and,
      show s + (i - s) = i by omega] at this
    exact this
  rcases Nat.lt_or_ge i 16 with h16 | h16
  · exact key 0 16 h4 (by omega) (by omega)
  rcases Nat.lt_or_ge i 20 with h20 | h20
  · exact key 16 4 h3 (by omega) (by omega)
  rcases Nat.lt_or_ge i 24 with h24 | h24
  · exact key 20 4 h2 (by omega) (by omega)
  · exact key 24 8 h1 (by omega) (by omega)

theorem header_eq_mkHeader {h : Word} (hr : rsvField h = 0) : h = mkHeader (opField h) (chField h) (immField h) :=
  header_ext (by simp) (by simp) (by simpa using hr) (by simp)

/-! ### The mask check -/

/-- A field of a conjunction. -/
theorem extract_and (x y : Word) (s n : Nat) :
    (x &&& y).extractLsb' s n = x.extractLsb' s n &&& y.extractLsb' s n := by
  apply BitVec.eq_of_getLsbD_eq
  intro i hi
  simp [hi]

/-- Whether a format reads `imm`, column `uses imm` of R72. -/
def usesImm : Format → Bool
  | .z  => false
  | .c  => false
  | .ci => true
  | .i  => true

/-- `header AND mask = match` says: the opcode byte, reserved bits 0, and 0 in every field the format does not use
(R72, R79). -/
theorem and_mask_iff (o : Opcode) (h : Word) :
    h &&& o.format.mask = o.matchValue ↔
      opField h = o.byte ∧ rsvField h = 0 ∧ (o.format.usesChannel = false → chField h = 0) ∧
        (usesImm o.format = false → immField h = 0) := by
  constructor
  · intro he
    have f1 := congrArg opField he
    have f2 := congrArg chField he
    have f3 := congrArg rsvField he
    have f4 := congrArg immField he
    simp only [opField, chField, rsvField, immField, extract_and] at f1 f2 f3 f4 ⊢
    have ones8 : ∀ x : BitVec 8, x &&& 0xFF#8 = x := by decide
    have ones4 : ∀ x : BitVec 4, x &&& 0xF#4 = x := by decide
    have ones16 : ∀ x : BitVec 16, x &&& 0xFFFF#16 = x := fun x => BitVec.and_allOnes
    refine ⟨?_, ?_, ?_, ?_⟩
    · cases o <;> exact (ones8 _).symm.trans f1
    · cases o <;> exact (ones4 _).symm.trans f3
    · cases o <;> intro hu <;> first | (exact absurd hu (by decide)) | exact (ones4 _).symm.trans f2
    · cases o <;> intro hu <;> first | (exact absurd hu (by decide)) | exact (ones16 _).symm.trans f4
  · rintro ⟨h1, h2, h3, h4⟩
    have zero4 : ∀ x : BitVec 4, x &&& 0#4 = 0#4 := fun x => BitVec.and_zero
    have zero16 : ∀ x : BitVec 16, x &&& 0#16 = 0#16 := fun x => BitVec.and_zero
    apply header_ext
    · simp only [opField, extract_and] at h1 ⊢
      rw [h1]; cases o <;> rfl
    · simp only [chField, extract_and] at h3 ⊢
      cases o <;> first | exact zero4 _ | (rw [h3 rfl]; rfl)
    · simp only [rsvField, extract_and] at h2 ⊢
      rw [h2]; cases o <;> rfl
    · simp only [immField, extract_and] at h4 ⊢
      cases o <;> first | exact zero16 _ | (rw [h4 rfl]; rfl)

/-! ### The opcode lookup -/

@[simp] theorem Opcode.ofByte?_byte (o : Opcode) : Opcode.ofByte? o.byte = some o := by
  cases o <;> rfl

theorem Opcode.ofByte?_eq_some {b : Byte} {o : Opcode} (h : Opcode.ofByte? b = some o) : o.byte = b := by
  have := List.find?_some h
  simpa using this

theorem Opcode.ofByte?_eq_none_iff (b : Byte) :
    Opcode.ofByte? b = none ↔ b.toNat ∉ [1, 2, 3, 4, 5, 6, 7, 8, 0x10, 0x20, 0x30] := by
  revert b; decide +kernel

/-! ### Responses -/

theorem response_bit (a b : Byte) (c : BitVec 16) (i : Nat) :
    (a ++ b ++ c : BitVec (8 + 8 + 16)).getLsbD i =
      if i < 16 then c.getLsbD i else if i < 24 then b.getLsbD (i - 16) else a.getLsbD (i - 24) := by
  simp only [BitVec.getLsbD_append]
  split_ifs <;> first | rfl | omega

@[simp] theorem opField_response (op : Byte) (st : Status) (d : List Word) :
    opField (responsePacket op st d).header = op := by
  apply BitVec.eq_of_getLsbD_eq
  intro i hi
  rw [opField, BitVec.getLsbD_extractLsb', responsePacket, response_bit]
  simp only [hi, decide_true, Bool.true_and]
  split_ifs <;> first | omega | (congr 1; omega)

@[simp] theorem statusField_response (op : Byte) (st : Status) (d : List Word) :
    statusField (responsePacket op st d).header = st.code := by
  apply BitVec.eq_of_getLsbD_eq
  intro i hi
  rw [statusField, BitVec.getLsbD_extractLsb', responsePacket, response_bit]
  simp only [hi, decide_true, Bool.true_and]
  split_ifs <;> first | omega | (congr 1; omega)

@[simp] theorem cntField_response (op : Byte) (st : Status) (d : List Word) :
    cntField (responsePacket op st d).header = BitVec.ofNat 16 d.length := by
  apply BitVec.eq_of_getLsbD_eq
  intro i hi
  rw [cntField, BitVec.getLsbD_extractLsb', responsePacket, response_bit]
  simp only [hi, decide_true, Bool.true_and]
  split_ifs <;> first | omega | (congr 1; omega)

@[simp] theorem body_response (op : Byte) (st : Status) (d : List Word) : (responsePacket op st d).body = d := rfl

end Sys2Proof
end

