-- ==== Sys2Proof/Laws/State.lean ====
section
/-! SUPPORT. One lemma per field per update of the state, so that no proof unfolds a record update, and the small laws of
reading rings after an update. -/

namespace Sys2Proof

theorem Config.w_pos (c : Config) : 0 < c.w := by
  unfold Config.w; omega

theorem Config.w_odd (c : Config) : c.w % 2 = 1 := by
  unfold Config.w; omega

theorem Config.w_le (c : Config) : c.w ≤ 65535 := by
  have := c.halfWindow.isLt
  unfold Config.w; omega

end Sys2Proof

namespace Sys2Proof.Machine

open Sys2Proof

/-! ### `setRing` -/

@[simp] theorem State.setRing_cfg (s : State) (c : Channel) (r : Ring) : (s.setRing c r).cfg = s.cfg := rfl
@[simp] theorem State.setRing_rings (s : State) (c : Channel) (r : Ring) : (s.setRing c r).rings = s.rings.set c.val r c.isLt := rfl
@[simp] theorem State.setRing_frm (s : State) (c : Channel) (r : Ring) : (s.setRing c r).frm = s.frm := rfl
@[simp] theorem State.setRing_frmValid (s : State) (c : Channel) (r : Ring) : (s.setRing c r).frmValid = s.frmValid := rfl
@[simp] theorem State.setRing_ft (s : State) (c : Channel) (r : Ring) : (s.setRing c r).ft = s.ft := rfl
@[simp] theorem State.setRing_gen (s : State) (c : Channel) (r : Ring) : (s.setRing c r).gen = s.gen := rfl
@[simp] theorem State.setRing_wa (s : State) (c : Channel) (r : Ring) : (s.setRing c r).wa = s.wa := rfl
@[simp] theorem State.setRing_txOffered (s : State) (c : Channel) (r : Ring) : (s.setRing c r).txOffered = s.txOffered := rfl
@[simp] theorem State.setRing_cmdPort (s : State) (c : Channel) (r : Ring) : (s.setRing c r).cmdPort = s.cmdPort := rfl
@[simp] theorem State.setRing_txPort (s : State) (c : Channel) (r : Ring) : (s.setRing c r).txPort = s.txPort := rfl
@[simp] theorem State.setRing_rstPort (s : State) (c : Channel) (r : Ring) : (s.setRing c r).rstPort = s.rstPort := rfl
@[simp] theorem State.setRing_rspLog (s : State) (c : Channel) (r : Ring) : (s.setRing c r).rspLog = s.rspLog := rfl
@[simp] theorem State.setRing_txLog (s : State) (c : Channel) (r : Ring) : (s.setRing c r).txLog = s.txLog := rfl
@[simp] theorem State.w_setRing (s : State) (c : Channel) (r : Ring) : (s.setRing c r).w = s.w := rfl

/-! ### `respond` -/

@[simp] theorem State.respond_cfg (s : State) (op : Byte) (st : Status) (d : List Word) : (s.respond op st d).cfg = s.cfg := rfl
@[simp] theorem State.respond_rings (s : State) (op : Byte) (st : Status) (d : List Word) : (s.respond op st d).rings = s.rings := rfl
@[simp] theorem State.respond_frm (s : State) (op : Byte) (st : Status) (d : List Word) : (s.respond op st d).frm = s.frm := rfl
@[simp] theorem State.respond_frmValid (s : State) (op : Byte) (st : Status) (d : List Word) : (s.respond op st d).frmValid = s.frmValid := rfl
@[simp] theorem State.respond_ft (s : State) (op : Byte) (st : Status) (d : List Word) : (s.respond op st d).ft = s.ft := rfl
@[simp] theorem State.respond_gen (s : State) (op : Byte) (st : Status) (d : List Word) : (s.respond op st d).gen = s.gen := rfl
@[simp] theorem State.respond_wa (s : State) (op : Byte) (st : Status) (d : List Word) : (s.respond op st d).wa = s.wa := rfl
@[simp] theorem State.respond_txOffered (s : State) (op : Byte) (st : Status) (d : List Word) : (s.respond op st d).txOffered = s.txOffered := rfl
@[simp] theorem State.respond_cmdPort (s : State) (op : Byte) (st : Status) (d : List Word) : (s.respond op st d).cmdPort = s.cmdPort := rfl
@[simp] theorem State.respond_txPort (s : State) (op : Byte) (st : Status) (d : List Word) : (s.respond op st d).txPort = s.txPort := rfl
@[simp] theorem State.respond_rstPort (s : State) (op : Byte) (st : Status) (d : List Word) : (s.respond op st d).rstPort = s.rstPort := rfl
@[simp] theorem State.respond_rspLog (s : State) (op : Byte) (st : Status) (d : List Word) : (s.respond op st d).rspLog = s.rspLog ++ [responsePacket op st d] := rfl
@[simp] theorem State.respond_txLog (s : State) (op : Byte) (st : Status) (d : List Word) : (s.respond op st d).txLog = s.txLog := rfl
@[simp] theorem State.ring_respond (s : State) (op : Byte) (st : Status) (d : List Word) (k : Channel) : (s.respond op st d).ring k = s.ring k := rfl
@[simp] theorem State.w_respond (s : State) (op : Byte) (st : Status) (d : List Word) : (s.respond op st d).w = s.w := rfl

/-! ### `memWriteFrame` -/

@[simp] theorem State.memWriteFrame_cfg (s : State) (b : Vector Byte 38) : (s.memWriteFrame b).cfg = s.cfg := rfl
@[simp] theorem State.memWriteFrame_rings (s : State) (b : Vector Byte 38) : (s.memWriteFrame b).rings = s.rings := rfl
@[simp] theorem State.memWriteFrame_frm (s : State) (b : Vector Byte 38) : (s.memWriteFrame b).frm = b := rfl
@[simp] theorem State.memWriteFrame_frmValid (s : State) (b : Vector Byte 38) : (s.memWriteFrame b).frmValid = s.frmValid := rfl
@[simp] theorem State.memWriteFrame_ft (s : State) (b : Vector Byte 38) : (s.memWriteFrame b).ft = s.ft := rfl
@[simp] theorem State.memWriteFrame_gen (s : State) (b : Vector Byte 38) : (s.memWriteFrame b).gen = s.gen := rfl
@[simp] theorem State.memWriteFrame_wa (s : State) (b : Vector Byte 38) : (s.memWriteFrame b).wa = s.wa := rfl
@[simp] theorem State.memWriteFrame_txOffered (s : State) (b : Vector Byte 38) : (s.memWriteFrame b).txOffered = s.txOffered := rfl
@[simp] theorem State.memWriteFrame_cmdPort (s : State) (b : Vector Byte 38) : (s.memWriteFrame b).cmdPort = s.cmdPort := rfl
@[simp] theorem State.memWriteFrame_txPort (s : State) (b : Vector Byte 38) : (s.memWriteFrame b).txPort = s.txPort := rfl
@[simp] theorem State.memWriteFrame_rstPort (s : State) (b : Vector Byte 38) : (s.memWriteFrame b).rstPort = s.rstPort := rfl
@[simp] theorem State.memWriteFrame_rspLog (s : State) (b : Vector Byte 38) : (s.memWriteFrame b).rspLog = s.rspLog := rfl
@[simp] theorem State.memWriteFrame_txLog (s : State) (b : Vector Byte 38) : (s.memWriteFrame b).txLog = s.txLog := rfl
@[simp] theorem State.ring_memWriteFrame (s : State) (b : Vector Byte 38) (k : Channel) : (s.memWriteFrame b).ring k = s.ring k := rfl
@[simp] theorem State.w_memWriteFrame (s : State) (b : Vector Byte 38) : (s.memWriteFrame b).w = s.w := rfl

/-! ### `sampleTaken` -/

@[simp] theorem State.sampleTaken_cfg (s : State) : (s.sampleTaken).cfg = s.cfg := rfl
@[simp] theorem State.sampleTaken_rings (s : State) : (s.sampleTaken).rings = s.rings := rfl
@[simp] theorem State.sampleTaken_frm (s : State) : (s.sampleTaken).frm = s.frm := rfl
@[simp] theorem State.sampleTaken_frmValid (s : State) : (s.sampleTaken).frmValid = s.frmValid := rfl
@[simp] theorem State.sampleTaken_ft (s : State) : (s.sampleTaken).ft = s.ft := rfl
@[simp] theorem State.sampleTaken_gen (s : State) : (s.sampleTaken).gen = s.gen := rfl
@[simp] theorem State.sampleTaken_wa (s : State) : (s.sampleTaken).wa = s.wa := rfl
@[simp] theorem State.sampleTaken_txOffered (s : State) : (s.sampleTaken).txOffered = s.txOffered := rfl
@[simp] theorem State.sampleTaken_cmdPort (s : State) : (s.sampleTaken).cmdPort = s.cmdPort := rfl
@[simp] theorem State.sampleTaken_txPort (s : State) : (s.sampleTaken).txPort = s.txPort := rfl
@[simp] theorem State.sampleTaken_rstPort (s : State) : (s.sampleTaken).rstPort = s.rstPort.tail := rfl
@[simp] theorem State.sampleTaken_rspLog (s : State) : (s.sampleTaken).rspLog = s.rspLog := rfl
@[simp] theorem State.sampleTaken_txLog (s : State) : (s.sampleTaken).txLog = s.txLog := rfl
@[simp] theorem State.ring_sampleTaken (s : State) (k : Channel) : (s.sampleTaken).ring k = s.ring k := rfl
@[simp] theorem State.w_sampleTaken (s : State) : (s.sampleTaken).w = s.w := rfl

/-! ### `pushSample` -/

@[simp] theorem State.pushSample_cfg (s : State) (v : Vector Word 9) : (s.pushSample v).cfg = s.cfg := rfl
@[simp] theorem State.pushSample_rings (s : State) (v : Vector Word 9) : (s.pushSample v).rings = perChannel fun k => (s.ring k).put s.w (sampleCell (v[k.val]'k.isLt)) := rfl
@[simp] theorem State.pushSample_frm (s : State) (v : Vector Word 9) : (s.pushSample v).frm = s.frm := rfl
@[simp] theorem State.pushSample_frmValid (s : State) (v : Vector Word 9) : (s.pushSample v).frmValid = s.frmValid := rfl
@[simp] theorem State.pushSample_ft (s : State) (v : Vector Word 9) : (s.pushSample v).ft = s.ft := rfl
@[simp] theorem State.pushSample_gen (s : State) (v : Vector Word 9) : (s.pushSample v).gen = s.gen := rfl
@[simp] theorem State.pushSample_wa (s : State) (v : Vector Word 9) : (s.pushSample v).wa = s.wa := rfl
@[simp] theorem State.pushSample_txOffered (s : State) (v : Vector Word 9) : (s.pushSample v).txOffered = s.txOffered := rfl
@[simp] theorem State.pushSample_cmdPort (s : State) (v : Vector Word 9) : (s.pushSample v).cmdPort = s.cmdPort := rfl
@[simp] theorem State.pushSample_txPort (s : State) (v : Vector Word 9) : (s.pushSample v).txPort = s.txPort := rfl
@[simp] theorem State.pushSample_rstPort (s : State) (v : Vector Word 9) : (s.pushSample v).rstPort = s.rstPort := rfl
@[simp] theorem State.pushSample_rspLog (s : State) (v : Vector Word 9) : (s.pushSample v).rspLog = s.rspLog := rfl
@[simp] theorem State.pushSample_txLog (s : State) (v : Vector Word 9) : (s.pushSample v).txLog = s.txLog := rfl
@[simp] theorem State.w_pushSample (s : State) (v : Vector Word 9) : (s.pushSample v).w = s.w := rfl

/-! ### `afterSelection` -/

@[simp] theorem State.afterSelection_cfg (s : State) : (s.afterSelection).cfg = s.cfg := rfl
@[simp] theorem State.afterSelection_rings (s : State) : (s.afterSelection).rings = s.rings := rfl
@[simp] theorem State.afterSelection_frm (s : State) : (s.afterSelection).frm = s.frm := rfl
@[simp] theorem State.afterSelection_frmValid (s : State) : (s.afterSelection).frmValid = s.frmValid := rfl
@[simp] theorem State.afterSelection_ft (s : State) : (s.afterSelection).ft = s.ft := rfl
@[simp] theorem State.afterSelection_gen (s : State) : (s.afterSelection).gen = s.genAfterFilter := rfl
@[simp] theorem State.afterSelection_wa (s : State) : (s.afterSelection).wa = workCells s.w s.genAfterFilter := rfl
@[simp] theorem State.afterSelection_txOffered (s : State) : (s.afterSelection).txOffered = s.txOffered := rfl
@[simp] theorem State.afterSelection_cmdPort (s : State) : (s.afterSelection).cmdPort = s.cmdPort := rfl
@[simp] theorem State.afterSelection_txPort (s : State) : (s.afterSelection).txPort = s.txPort := rfl
@[simp] theorem State.afterSelection_rstPort (s : State) : (s.afterSelection).rstPort = s.rstPort := rfl
@[simp] theorem State.afterSelection_rspLog (s : State) : (s.afterSelection).rspLog = s.rspLog := rfl
@[simp] theorem State.afterSelection_txLog (s : State) : (s.afterSelection).txLog = s.txLog := rfl
@[simp] theorem State.ring_afterSelection (s : State) (k : Channel) : (s.afterSelection).ring k = s.ring k := rfl
@[simp] theorem State.w_afterSelection (s : State) : (s.afterSelection).w = s.w := rfl

/-! ### `startSend` -/

@[simp] theorem State.startSend_cfg (s : State) (max : Nat) : (s.startSend max).cfg = s.cfg := rfl
@[simp] theorem State.startSend_rings (s : State) (max : Nat) : (s.startSend max).rings = s.rings := rfl
@[simp] theorem State.startSend_frm (s : State) (max : Nat) : (s.startSend max).frm = s.frm := rfl
@[simp] theorem State.startSend_frmValid (s : State) (max : Nat) : (s.startSend max).frmValid = s.frmValid := rfl
@[simp] theorem State.startSend_ft (s : State) (max : Nat) : (s.startSend max).ft = SendState.start max := rfl
@[simp] theorem State.startSend_gen (s : State) (max : Nat) : (s.startSend max).gen = s.gen := rfl
@[simp] theorem State.startSend_wa (s : State) (max : Nat) : (s.startSend max).wa = s.wa := rfl
@[simp] theorem State.startSend_txOffered (s : State) (max : Nat) : (s.startSend max).txOffered = false := rfl
@[simp] theorem State.startSend_cmdPort (s : State) (max : Nat) : (s.startSend max).cmdPort = s.cmdPort := rfl
@[simp] theorem State.startSend_txPort (s : State) (max : Nat) : (s.startSend max).txPort = s.txPort := rfl
@[simp] theorem State.startSend_rstPort (s : State) (max : Nat) : (s.startSend max).rstPort = s.rstPort := rfl
@[simp] theorem State.startSend_rspLog (s : State) (max : Nat) : (s.startSend max).rspLog = s.rspLog := rfl
@[simp] theorem State.startSend_txLog (s : State) (max : Nat) : (s.startSend max).txLog = s.txLog := rfl
@[simp] theorem State.ring_startSend (s : State) (max : Nat) (k : Channel) : (s.startSend max).ring k = s.ring k := rfl
@[simp] theorem State.w_startSend (s : State) (max : Nat) : (s.startSend max).w = s.w := rfl

/-! ### `answerTaken` -/

@[simp] theorem State.answerTaken_cfg (s : State) : (s.answerTaken).cfg = s.cfg := rfl
@[simp] theorem State.answerTaken_rings (s : State) : (s.answerTaken).rings = s.rings := rfl
@[simp] theorem State.answerTaken_frm (s : State) : (s.answerTaken).frm = s.frm := rfl
@[simp] theorem State.answerTaken_frmValid (s : State) : (s.answerTaken).frmValid = s.frmValid := rfl
@[simp] theorem State.answerTaken_ft (s : State) : (s.answerTaken).ft = s.ft := rfl
@[simp] theorem State.answerTaken_gen (s : State) : (s.answerTaken).gen = s.gen := rfl
@[simp] theorem State.answerTaken_wa (s : State) : (s.answerTaken).wa = s.wa := rfl
@[simp] theorem State.answerTaken_txOffered (s : State) : (s.answerTaken).txOffered = s.txOffered := rfl
@[simp] theorem State.answerTaken_cmdPort (s : State) : (s.answerTaken).cmdPort = s.cmdPort := rfl
@[simp] theorem State.answerTaken_txPort (s : State) : (s.answerTaken).txPort = s.txPort.tail := rfl
@[simp] theorem State.answerTaken_rstPort (s : State) : (s.answerTaken).rstPort = s.rstPort := rfl
@[simp] theorem State.answerTaken_rspLog (s : State) : (s.answerTaken).rspLog = s.rspLog := rfl
@[simp] theorem State.answerTaken_txLog (s : State) : (s.answerTaken).txLog = s.txLog := rfl
@[simp] theorem State.ring_answerTaken (s : State) (k : Channel) : (s.answerTaken).ring k = s.ring k := rfl
@[simp] theorem State.w_answerTaken (s : State) : (s.answerTaken).w = s.w := rfl

/-! ### `chunkUnanswered` -/

@[simp] theorem State.chunkUnanswered_cfg (s : State) : (s.chunkUnanswered).cfg = s.cfg := rfl
@[simp] theorem State.chunkUnanswered_rings (s : State) : (s.chunkUnanswered).rings = s.rings := rfl
@[simp] theorem State.chunkUnanswered_frm (s : State) : (s.chunkUnanswered).frm = s.frm := rfl
@[simp] theorem State.chunkUnanswered_frmValid (s : State) : (s.chunkUnanswered).frmValid = s.frmValid := rfl
@[simp] theorem State.chunkUnanswered_ft (s : State) : (s.chunkUnanswered).ft = s.ft := rfl
@[simp] theorem State.chunkUnanswered_gen (s : State) : (s.chunkUnanswered).gen = s.gen := rfl
@[simp] theorem State.chunkUnanswered_wa (s : State) : (s.chunkUnanswered).wa = s.wa := rfl
@[simp] theorem State.chunkUnanswered_txOffered (s : State) : (s.chunkUnanswered).txOffered = true := rfl
@[simp] theorem State.chunkUnanswered_cmdPort (s : State) : (s.chunkUnanswered).cmdPort = s.cmdPort := rfl
@[simp] theorem State.chunkUnanswered_txPort (s : State) : (s.chunkUnanswered).txPort = s.txPort := rfl
@[simp] theorem State.chunkUnanswered_rstPort (s : State) : (s.chunkUnanswered).rstPort = s.rstPort := rfl
@[simp] theorem State.chunkUnanswered_rspLog (s : State) : (s.chunkUnanswered).rspLog = s.rspLog := rfl
@[simp] theorem State.chunkUnanswered_txLog (s : State) : (s.chunkUnanswered).txLog = s.txLog := rfl
@[simp] theorem State.ring_chunkUnanswered (s : State) (k : Channel) : (s.chunkUnanswered).ring k = s.ring k := rfl
@[simp] theorem State.w_chunkUnanswered (s : State) : (s.chunkUnanswered).w = s.w := rfl

/-! ### `chunkAnswered` -/

@[simp] theorem State.chunkAnswered_cfg (s : State) (a : TxAnswer) : (s.chunkAnswered a).cfg = s.cfg := rfl
@[simp] theorem State.chunkAnswered_rings (s : State) (a : TxAnswer) : (s.chunkAnswered a).rings = s.rings := rfl
@[simp] theorem State.chunkAnswered_frm (s : State) (a : TxAnswer) : (s.chunkAnswered a).frm = s.frm := rfl
@[simp] theorem State.chunkAnswered_frmValid (s : State) (a : TxAnswer) : (s.chunkAnswered a).frmValid = s.frmValid := rfl
@[simp] theorem State.chunkAnswered_ft (s : State) (a : TxAnswer) : (s.chunkAnswered a).ft = s.ft.answered s.cfg.failPolicy a := rfl
@[simp] theorem State.chunkAnswered_gen (s : State) (a : TxAnswer) : (s.chunkAnswered a).gen = s.gen := rfl
@[simp] theorem State.chunkAnswered_wa (s : State) (a : TxAnswer) : (s.chunkAnswered a).wa = s.wa := rfl
@[simp] theorem State.chunkAnswered_txOffered (s : State) (a : TxAnswer) : (s.chunkAnswered a).txOffered = s.txOffered := rfl
@[simp] theorem State.chunkAnswered_cmdPort (s : State) (a : TxAnswer) : (s.chunkAnswered a).cmdPort = s.cmdPort := rfl
@[simp] theorem State.chunkAnswered_txPort (s : State) (a : TxAnswer) : (s.chunkAnswered a).txPort = s.txPort := rfl
@[simp] theorem State.chunkAnswered_rstPort (s : State) (a : TxAnswer) : (s.chunkAnswered a).rstPort = s.rstPort := rfl
@[simp] theorem State.chunkAnswered_rspLog (s : State) (a : TxAnswer) : (s.chunkAnswered a).rspLog = s.rspLog := rfl
@[simp] theorem State.chunkAnswered_txLog (s : State) (a : TxAnswer) : (s.chunkAnswered a).txLog = s.txLog ++ [{ bytes := s.memRead s.ft.off s.ft.len, answer := some a }] := rfl
@[simp] theorem State.ring_chunkAnswered (s : State) (a : TxAnswer) (k : Channel) : (s.chunkAnswered a).ring k = s.ring k := rfl
@[simp] theorem State.w_chunkAnswered (s : State) (a : TxAnswer) : (s.chunkAnswered a).w = s.w := rfl

/-! ### `finishSend` -/

@[simp] theorem State.finishSend_cfg (s : State) : (s.finishSend).cfg = s.cfg := rfl
@[simp] theorem State.finishSend_rings (s : State) : (s.finishSend).rings = s.rings := rfl
@[simp] theorem State.finishSend_frm (s : State) : (s.finishSend).frm = s.frm := rfl
@[simp] theorem State.finishSend_frmValid (s : State) : (s.finishSend).frmValid = false := rfl
@[simp] theorem State.finishSend_ft (s : State) : (s.finishSend).ft = { s.ft with active := false } := rfl
@[simp] theorem State.finishSend_gen (s : State) : (s.finishSend).gen = s.gen := rfl
@[simp] theorem State.finishSend_wa (s : State) : (s.finishSend).wa = s.wa := rfl
@[simp] theorem State.finishSend_txOffered (s : State) : (s.finishSend).txOffered = s.txOffered := rfl
@[simp] theorem State.finishSend_cmdPort (s : State) : (s.finishSend).cmdPort = s.cmdPort := rfl
@[simp] theorem State.finishSend_txPort (s : State) : (s.finishSend).txPort = s.txPort := rfl
@[simp] theorem State.finishSend_rstPort (s : State) : (s.finishSend).rstPort = s.rstPort := rfl
@[simp] theorem State.finishSend_rspLog (s : State) : (s.finishSend).rspLog = s.rspLog ++ [responsePacket Opcode.ftSend.byte (sendStatus s.ft.failed) [natWord s.ft.ok, natWord s.ft.cnt]] := rfl
@[simp] theorem State.finishSend_txLog (s : State) : (s.finishSend).txLog = s.txLog := rfl
@[simp] theorem State.ring_finishSend (s : State) (k : Channel) : (s.finishSend).ring k = s.ring k := rfl
@[simp] theorem State.w_finishSend (s : State) : (s.finishSend).w = s.w := rfl

/-! ### `chunkWrite` -/

/-- What one chunk write can be: no answer, an answer after which the send goes on, or the answer that ends it (R171). -/
theorem State.chunkWrite_cases (s : State) :
    (s.nextAnswer = none ∧ s.chunkWrite = s.answerTaken.chunkUnanswered) ∨
    (∃ a, s.nextAnswer = some a ∧ s.ft.ends s.cfg.failPolicy a = false ∧
      s.chunkWrite = s.answerTaken.chunkAnswered a) ∨
    (∃ a, s.nextAnswer = some a ∧ s.ft.ends s.cfg.failPolicy a = true ∧
      s.chunkWrite = (s.answerTaken.chunkAnswered a).finishSend) := by
  unfold State.chunkWrite
  cases hn : s.nextAnswer with
  | none => simp
  | some a => cases he : s.ft.ends s.cfg.failPolicy a <;> simp [he]

@[simp] theorem State.chunkWrite_cfg (s : State) : s.chunkWrite.cfg = s.cfg := by
  rcases s.chunkWrite_cases with ⟨_, h⟩ | ⟨_, _, _, h⟩ | ⟨_, _, _, h⟩ <;> rw [h] <;> rfl
@[simp] theorem State.chunkWrite_rings (s : State) : s.chunkWrite.rings = s.rings := by
  rcases s.chunkWrite_cases with ⟨_, h⟩ | ⟨_, _, _, h⟩ | ⟨_, _, _, h⟩ <;> rw [h] <;> rfl
@[simp] theorem State.chunkWrite_frm (s : State) : s.chunkWrite.frm = s.frm := by
  rcases s.chunkWrite_cases with ⟨_, h⟩ | ⟨_, _, _, h⟩ | ⟨_, _, _, h⟩ <;> rw [h] <;> rfl
@[simp] theorem State.chunkWrite_gen (s : State) : s.chunkWrite.gen = s.gen := by
  rcases s.chunkWrite_cases with ⟨_, h⟩ | ⟨_, _, _, h⟩ | ⟨_, _, _, h⟩ <;> rw [h] <;> rfl
@[simp] theorem State.chunkWrite_wa (s : State) : s.chunkWrite.wa = s.wa := by
  rcases s.chunkWrite_cases with ⟨_, h⟩ | ⟨_, _, _, h⟩ | ⟨_, _, _, h⟩ <;> rw [h] <;> rfl
@[simp] theorem State.chunkWrite_cmdPort (s : State) : s.chunkWrite.cmdPort = s.cmdPort := by
  rcases s.chunkWrite_cases with ⟨_, h⟩ | ⟨_, _, _, h⟩ | ⟨_, _, _, h⟩ <;> rw [h] <;> rfl
@[simp] theorem State.chunkWrite_rstPort (s : State) : s.chunkWrite.rstPort = s.rstPort := by
  rcases s.chunkWrite_cases with ⟨_, h⟩ | ⟨_, _, _, h⟩ | ⟨_, _, _, h⟩ <;> rw [h] <;> rfl
@[simp] theorem State.chunkWrite_txPort (s : State) : s.chunkWrite.txPort = s.txPort.tail := by
  rcases s.chunkWrite_cases with ⟨_, h⟩ | ⟨_, _, _, h⟩ | ⟨_, _, _, h⟩ <;> rw [h] <;> rfl

/-! ### `resetEvent` -/

@[simp] theorem State.resetEvent_cfg (s : State) : (s.resetEvent).cfg = s.cfg := rfl
@[simp] theorem State.resetEvent_rings (s : State) : (s.resetEvent).rings = Vector.replicate 9 (Ring.init s.cfg.w) := rfl
@[simp] theorem State.resetEvent_frm (s : State) : (s.resetEvent).frm = Vector.replicate 38 0 := rfl
@[simp] theorem State.resetEvent_frmValid (s : State) : (s.resetEvent).frmValid = false := rfl
@[simp] theorem State.resetEvent_ft (s : State) : (s.resetEvent).ft = SendState.init := rfl
@[simp] theorem State.resetEvent_gen (s : State) : (s.resetEvent).gen = { prng := s.cfg.prngSeed, drawCtr := s.gen.drawCtr } := rfl
@[simp] theorem State.resetEvent_wa (s : State) : (s.resetEvent).wa = List.replicate s.cfg.w 0 := rfl
@[simp] theorem State.resetEvent_txOffered (s : State) : (s.resetEvent).txOffered = false := rfl
@[simp] theorem State.resetEvent_cmdPort (s : State) : (s.resetEvent).cmdPort = s.cmdPort := rfl
@[simp] theorem State.resetEvent_txPort (s : State) : (s.resetEvent).txPort = s.txPort := rfl
@[simp] theorem State.resetEvent_rstPort (s : State) : (s.resetEvent).rstPort = s.rstPort := rfl
@[simp] theorem State.resetEvent_rspLog (s : State) : (s.resetEvent).rspLog = s.rspLog := rfl
@[simp] theorem State.resetEvent_txLog (s : State) : (s.resetEvent).txLog = s.txLog ++ s.abandoned := rfl
@[simp] theorem State.w_resetEvent (s : State) : (s.resetEvent).w = s.w := rfl

/-! ### Rings after an update -/

@[simp] theorem State.ring_setRing_self (s : State) (c : Channel) (r : Ring) : (s.setRing c r).ring c = r := by
  simp [State.ring]

theorem State.ring_setRing_of_ne (s : State) (c d : Channel) (r : Ring) (h : d ≠ c) :
    (s.setRing c r).ring d = s.ring d := by
  have : c.val ≠ d.val := fun e => h (Fin.ext e.symm)
  simp [State.ring, Vector.getElem_set_ne, this]

@[simp] theorem perChannel_get {α : Type} (f : Channel → α) (k : Channel) : (perChannel f)[k.val]'k.isLt = f k := by
  fin_cases k <;> rfl

theorem State.ring_mk_perChannel (s : State) (f : Channel → Ring) (k : Channel) :
    ({ s with rings := perChannel f } : State).ring k = f k := perChannel_get f k

@[simp] theorem State.ring_pushSample (s : State) (v : Vector Word 9) (k : Channel) :
    (s.pushSample v).ring k = (s.ring k).put s.w (sampleCell (v[k.val]'k.isLt)) := perChannel_get _ k

@[simp] theorem State.ring_resetEvent (s : State) (k : Channel) : s.resetEvent.ring k = Ring.init s.w := by
  simp [State.ring, State.w]

@[simp] theorem State.ring_ofConfig (cfg : Config) (k : Channel) : (State.ofConfig cfg).ring k = Ring.init cfg.w := by
  simp [State.ring, State.ofConfig]

@[simp] theorem State.w_ofConfig (cfg : Config) : (State.ofConfig cfg).w = cfg.w := rfl

theorem State.contents_eq (s : State) (k : Channel) : s.contents k = (s.ring k).contents s.w := rfl

theorem State.size_eq (s : State) (k : Channel) : s.size k = (s.ring k).size s.w := rfl

/-! ### The window -/

theorem State.w_pos (s : State) : 0 < s.w := Config.w_pos s.cfg

theorem State.w_le (s : State) : s.w ≤ 65535 := Config.w_le s.cfg

end Sys2Proof.Machine
end

