-- ==== Sys2Proof/Laws/Ring.lean ====
section
/-! SUPPORT. What the operations on one ring do: sizes, contents, and that every one keeps the ring invariants of R24. -/

namespace Sys2Proof.Machine

open Sys2Proof

variable {w : Nat} {r : Ring}

/-! ### Size, emptiness and contents -/

@[simp] theorem Ring.contents_length (w : Nat) (r : Ring) : (r.contents w).length = r.size w := by
  simp [Ring.contents]

theorem Ring.size_le (h : r.Inv w) : r.size w ≤ w := by
  obtain ⟨-, h1, h2, -⟩ := h
  unfold Ring.size
  split_ifs <;> omega

/-- The two branches of R26 for a ring that is not full, as one congruence: `wr` is `size` places after `rd`. -/
theorem Ring.rd_add_size (h : r.Inv w) : (r.rd + r.size w) % w = r.wr := by
  obtain ⟨-, h1, h2, h3⟩ := h
  unfold Ring.size
  split_ifs with hf hle
  · rw [Nat.add_mod_right, Nat.mod_eq_of_lt h1, h3 hf]
  · rw [show r.rd + (r.wr - r.rd) = r.wr by omega, Nat.mod_eq_of_lt h2]
  · rw [show r.rd + (w + r.wr - r.rd) = r.wr + w by omega, Nat.add_mod_right, Nat.mod_eq_of_lt h2]

theorem Ring.full_iff (h : r.Inv w) : r.full = true ↔ r.size w = w := by
  obtain ⟨-, h1, h2, -⟩ := h
  unfold Ring.size
  constructor
  · intro hf; simp [hf]
  · intro hs
    by_contra hf
    simp only [hf, if_false] at hs
    split_ifs at hs <;> omega

/-- Size and full flag from each other's complement: a ring that is not full has less than `W` elements. -/
theorem Ring.size_lt_of_not_full (h : r.Inv w) (hf : r.full = false) : r.size w < w := by
  have h1 := Ring.size_le h
  have h2 := Ring.full_iff h
  rcases Nat.lt_or_ge (r.size w) w with h3 | h3
  · exact h3
  · rw [h2.mpr (by omega)] at hf; cases hf

theorem Ring.isEmpty_iff (h : r.Inv w) : r.isEmpty = true ↔ r.size w = 0 := by
  obtain ⟨-, h1, h2, h3⟩ := h
  unfold Ring.size
  cases hf : r.full
  · simp [Ring.isEmpty, hf]; split_ifs <;> omega
  · simp [Ring.isEmpty, hf]; omega

theorem Ring.contents_eq_nil_iff (w : Nat) (r : Ring) : r.contents w = [] ↔ r.size w = 0 := by
  rw [← List.length_eq_zero_iff, Ring.contents_length]

theorem Ring.contents_getElem? (w : Nat) (r : Ring) (n : Nat) :
    (r.contents w)[n]? = if n < r.size w then some (r.cellAt w n) else none := by
  simp [Ring.contents]
  split_ifs with h <;> simp_all

theorem Ring.contents_getD (w : Nat) (r : Ring) (n : Nat) (d : Cell) :
    (r.contents w).getD n d = if n < r.size w then r.cellAt w n else d := by
  rw [List.getD_eq_getElem?_getD, Ring.contents_getElem?]
  split_ifs <;> rfl

theorem Ring.contents_headD (w : Nat) (r : Ring) (d : Cell) :
    (r.contents w).headD d = if r.size w = 0 then d else r.cellAt w 0 := by
  rw [List.headD_eq_head?_getD, List.head?_eq_getElem?, Ring.contents_getElem?]
  split_ifs <;> first | rfl | omega

/-- Two rings have the same contents when they have the same size and the same cells below it. -/
theorem Ring.contents_ext {r' : Ring} {w' : Nat} (hs : r.size w = r'.size w')
    (hc : ∀ n, n < r.size w → r.cellAt w n = r'.cellAt w' n) : r.contents w = r'.contents w' := by
  unfold Ring.contents
  rw [← hs]
  exact List.map_congr_left fun n hn => hc n (List.mem_range.mp hn)

/-! ### Every operation keeps the invariants -/

theorem Ring.init_inv (h : 0 < w) : (Ring.init w).Inv w := by
  simp [Ring.Inv, Ring.init, h]

theorem Ring.clear_inv (hw : 0 < w) (h : r.Inv w) : r.clear.Inv w := by
  exact ⟨h.1, hw, hw, fun hf => by simp [Ring.clear, fullCleared] at hf⟩

theorem Ring.drop_inv (h : r.Inv w) : (r.drop w).Inv w := by
  obtain ⟨h0, h1, h2, -⟩ := h
  exact ⟨h0, Nat.mod_lt _ (by omega), h2, fun hf => by simp [Ring.drop, fullCleared] at hf⟩

theorem Ring.evict_rd_lt (h : r.Inv w) : (r.evict w).rd < w := by
  unfold Ring.evict
  split_ifs
  · exact Nat.mod_lt _ (by have := h.2.1; omega)
  · exact h.2.1

@[simp] theorem Ring.evict_buf (w : Nat) (r : Ring) : (r.evict w).buf = r.buf := by
  unfold Ring.evict; split_ifs <;> rfl

@[simp] theorem Ring.evict_wr (w : Nat) (r : Ring) : (r.evict w).wr = r.wr := by
  unfold Ring.evict; split_ifs <;> rfl

theorem Ring.put_inv (h : r.Inv w) (v : Cell) : (r.put w v).Inv w := by
  refine ⟨by simp [Ring.put, Ring.write, h.1], Ring.evict_rd_lt h, Nat.mod_lt _ (by have := h.2.1; omega), ?_⟩
  intro hf
  simp only [Ring.put, Ring.write, fullAfterPut, decide_eq_true_eq] at hf ⊢
  exact hf.symm

/-! ### What each operation leaves -/

theorem Ring.put_rd (w : Nat) (r : Ring) (v : Cell) :
    (r.put w v).rd = if r.full = true then (r.rd + 1) % w else r.rd := by
  simp only [Ring.put, Ring.write, Ring.evict]
  split_ifs <;> rfl

@[simp] theorem Ring.put_buf (w : Nat) (r : Ring) (v : Cell) : (r.put w v).buf = r.buf.set r.wr v := by
  simp [Ring.put, Ring.write]

@[simp] theorem Ring.put_wr (w : Nat) (r : Ring) (v : Cell) : (r.put w v).wr = (r.wr + 1) % w := by
  simp [Ring.put, Ring.write, advance]

theorem Ring.put_full (w : Nat) (r : Ring) (v : Cell) :
    (r.put w v).full = true ↔ (r.put w v).wr = (r.put w v).rd := by
  simp [Ring.put, Ring.write, fullAfterPut]

@[simp] theorem Ring.drop_rd (w : Nat) (r : Ring) : (r.drop w).rd = (r.rd + 1) % w := rfl
@[simp] theorem Ring.drop_buf (w : Nat) (r : Ring) : (r.drop w).buf = r.buf := rfl
@[simp] theorem Ring.drop_wr (w : Nat) (r : Ring) : (r.drop w).wr = r.wr := rfl
@[simp] theorem Ring.drop_full (w : Nat) (r : Ring) : (r.drop w).full = false := rfl

@[simp] theorem Ring.size_clear (w : Nat) (r : Ring) : r.clear.size w = 0 := by
  simp [Ring.size, Ring.clear, fullCleared]

@[simp] theorem Ring.contents_clear (w : Nat) (r : Ring) : r.clear.contents w = [] := by
  simp [Ring.contents]

@[simp] theorem Ring.size_init (w : Nat) : (Ring.init w).size w = 0 := by
  simp [Ring.size, Ring.init]

@[simp] theorem Ring.contents_init (w : Nat) : (Ring.init w).contents w = [] := by
  simp [Ring.contents]

/-- `(a + 1) mod w` for a position in range. -/
theorem advance_eq {a : Nat} (h : a < w) : (a + 1) % w = if a + 1 = w then 0 else a + 1 := by
  split_ifs with he
  · rw [he, Nat.mod_self]
  · exact Nat.mod_eq_of_lt (by omega)

theorem Ring.size_drop (h : r.Inv w) (he : r.size w ≠ 0) : (r.drop w).size w + 1 = r.size w := by
  obtain ⟨-, h1, h2, h3⟩ := h
  revert he
  simp only [Ring.size, Ring.drop_rd, Ring.drop_wr, Ring.drop_full, advance_eq h1]
  cases hf : r.full
  · simp only [Bool.false_eq_true, if_false]
    split_ifs <;> omega
  · have := h3 hf
    simp only [Bool.false_eq_true, if_false, if_true]
    split_ifs <;> omega

/-- A get drops the first element (R102). -/
theorem Ring.contents_drop (h : r.Inv w) (he : r.size w ≠ 0) : (r.drop w).contents w = (r.contents w).tail := by
  have hs := Ring.size_drop h he
  apply List.ext_getElem?
  intro n
  rw [List.getElem?_tail, Ring.contents_getElem?, Ring.contents_getElem?]
  have : (r.drop w).cellAt w n = r.cellAt w (n + 1) := by
    simp only [Ring.cellAt, Ring.drop_rd, Ring.drop_buf, Nat.mod_add_mod]
    congr 2; omega
  rw [this]
  split_ifs <;> first | rfl | omega

theorem Ring.size_put (h : r.Inv w) (v : Cell) : (r.put w v).size w = if r.size w = w then w else r.size w + 1 := by
  have hf := Ring.put_full w r v
  have hr := Ring.put_rd w r v
  have hw := Ring.put_wr w r v
  have hfi := Ring.full_iff h
  obtain ⟨-, h1, h2, h3⟩ := h
  rw [advance_eq h2] at hw
  rw [advance_eq h1] at hr
  generalize r.put w v = q at hf hr hw
  cases hfull : r.full
  · rw [hfull] at hr hfi
    have hne : ¬ r.size w = w := by simpa using hfi
    rw [if_neg hne]
    revert hne
    simp only [Ring.size, hfull, Bool.false_eq_true, if_false] at hr ⊢
    cases hq : q.full
    · rw [hq] at hf
      simp only [Bool.false_eq_true, if_false, false_iff] at hf ⊢
      split_ifs at hw ⊢ <;> omega
    · rw [hq] at hf
      simp only [if_true, true_iff] at hf ⊢
      split_ifs at hw ⊢ <;> omega
  · have := h3 hfull
    rw [hfull] at hr hfi
    rw [if_pos (by simpa using hfi)]
    simp only [if_true] at hr
    have : q.full = true := hf.mpr (by rw [hw, hr, this])
    simp [Ring.size, this]

/-- The cell a put writes, read back by its place. -/
theorem Ring.put_cell (h : r.Inv w) (v : Cell) (p : Nat) :
    (r.put w v).buf.getD p defaultT = if p = r.wr then v else r.buf.getD p defaultT := by
  have hlt : r.wr < r.buf.length := by rw [h.1]; exact h.2.2.1
  rw [Ring.put_buf, List.getD_eq_getElem?_getD, List.getElem?_set, List.getD_eq_getElem?_getD]
  rcases eq_or_ne p r.wr with rfl | hp
  · simp [hlt]
  · simp [hp, hp.symm]

/-- A place `n` after `rd`, `n` below `W`, is the write position exactly when `n` is the size, or the ring is full and `n` is
0. -/
theorem Ring.place_eq_wr_iff (h : r.Inv w) {n : Nat} (hn : n < w) :
    (r.rd + n) % w = r.wr ↔ n = r.size w ∨ (r.size w = w ∧ n = 0) := by
  have hs := Ring.rd_add_size h
  have hle := Ring.size_le h
  obtain ⟨-, h1, -, -⟩ := h
  rw [← hs]
  generalize r.size w = m at hle
  have key : ∀ k, k ≤ w → (r.rd + k) % w = if r.rd + k < w then r.rd + k else if r.rd + k < 2 * w then r.rd + k - w else 0 := by
    intro k hk
    split_ifs with ha hb
    · exact Nat.mod_eq_of_lt ha
    · rw [Nat.mod_eq_sub_mod (by omega), Nat.mod_eq_of_lt (by omega)]
    · omega
  rw [key n (by omega), key m hle]
  split_ifs <;> omega

/-- A put appends the value and, on a full ring, drops the first element (R101, "in terms of contents"). -/
theorem Ring.contents_put (h : r.Inv w) (v : Cell) : (r.put w v).contents w = listPut w (r.contents w) v := by
  have hsz := Ring.size_put h v
  have hle := Ring.size_le h
  have hwr := Ring.rd_add_size h
  have hw : 0 < w := by have := h.2.1; omega
  unfold listPut
  simp only [List.length_append, Ring.contents_length, List.length_singleton, Nat.add_right_cancel_iff]
  by_cases hfull : r.size w = w
  · rw [if_pos hfull] at hsz ⊢
    have hrd : (r.put w v).rd = (r.rd + 1) % w := by rw [Ring.put_rd, if_pos ((Ring.full_iff h).mpr hfull)]
    apply List.ext_getElem?
    intro n
    rw [List.getElem?_tail, Ring.contents_getElem?, hsz]
    have hcell : (r.put w v).cellAt w n = if (r.rd + (n + 1)) % w = r.wr then v else r.cellAt w (n + 1) := by
      rw [Ring.cellAt, hrd, Nat.mod_add_mod, Ring.put_cell h, show r.rd + 1 + n = r.rd + (n + 1) by omega]
      rfl
    rw [hcell]
    split_ifs with h1 h2
    · have : n + 1 = w := by
        rcases Nat.lt_or_ge (n + 1) w with h3 | h3
        · have := (Ring.place_eq_wr_iff h h3).mp h2
          omega
        · omega
      rw [List.getElem?_append_right (by simp; omega)]
      simp [hfull, this]
    · have h3 : n + 1 < w := by
        by_contra h3
        have : n + 1 = w := by omega
        rw [this] at h2
        exact h2 (by rw [← hwr, hfull])
      rw [List.getElem?_append_left (by simp; omega), Ring.contents_getElem?, if_pos (by omega)]
    · symm; rw [List.getElem?_eq_none_iff]; simp; omega
  · rw [if_neg hfull] at hsz ⊢
    have hlt : r.size w < w := by omega
    have hrd : (r.put w v).rd = r.rd := by
      rw [Ring.put_rd, if_neg (fun hf => hfull ((Ring.full_iff h).mp hf))]
    apply List.ext_getElem?
    intro n
    rw [Ring.contents_getElem?, hsz]
    have hcell : (r.put w v).cellAt w n = if (r.rd + n) % w = r.wr then v else r.cellAt w n := by
      rw [Ring.cellAt, hrd, Ring.put_cell h]
      rfl
    rw [hcell]
    rcases Nat.lt_trichotomy n (r.size w) with h1 | h1 | h1
    · rw [if_pos (by omega), List.getElem?_append_left (by simpa using h1), Ring.contents_getElem?, if_pos h1, if_neg]
      rw [Ring.place_eq_wr_iff h (by omega)]
      omega
    · subst h1
      rw [if_pos (by omega), if_pos hwr, List.getElem?_append_right (by simp)]
      simp
    · rw [if_neg (by omega)]
      symm; rw [List.getElem?_eq_none_iff]; simp; omega

end Sys2Proof.Machine
end

