-- ==== Sys2Proof/Laws/Exec.lean ====
section
/-! SUPPORT. What each meaning does on legal operands, and what one step of the machine can be. -/

namespace Sys2Proof.Machine

open Sys2Proof

/-! ### Operands -/

@[simp] theorem channelOf_chanField (c : Channel) : channelOf (chanField c) = some c := by
  fin_cases c <;> rfl

theorem channelOf_eq_none {ch : BitVec 4} (h : 9 ≤ ch.toNat) : channelOf ch = none := by
  unfold channelOf
  rw [dif_neg (by omega)]

theorem chanField_of_channelOf {ch : BitVec 4} {c : Channel} (h : channelOf ch = some c) : ch = chanField c := by
  unfold channelOf at h
  split_ifs at h
  cases h
  simp [chanField]

theorem nineWords_eq_some {ops : List Word} (h : ops.length = 9) :
    nineWords ops = some ⟨ops.toArray, by simpa using h⟩ := by
  unfold nineWords
  rw [dif_pos h]

theorem nineWords_eq_none {ops : List Word} (h : ops.length ≠ 9) : nineWords ops = none := by
  unfold nineWords
  rw [dif_neg h]

variable {φ ρ : Type}

@[simp] theorem State.withChannel_chanField (s : State) (op : Opcode) (c : Channel)
    (f : Channel → Host.Outcome State φ ρ) : s.withChannel op (chanField c) f = f c := by
  simp [State.withChannel]

theorem State.withChannel_bad (s : State) (op : Opcode) {ch : BitVec 4} (h : 9 ≤ ch.toNat)
    (f : Channel → Host.Outcome State φ ρ) : s.withChannel op ch f = .next (s.reject op.byte .eChannel) := by
  simp [State.withChannel, channelOf_eq_none h]

/-- A `ch` field either names a channel or is 9 to 15. -/
theorem channel_cases (ch : BitVec 4) : (∃ c : Channel, ch = chanField c) ∨ 9 ≤ ch.toNat := by
  rcases Nat.lt_or_ge ch.toNat 9 with h | h
  · exact .inl ⟨⟨ch.toNat, h⟩, by simp [chanField]⟩
  · exact .inr h

theorem State.withNine_of (s : State) (op : Opcode) {ops : List Word} (h : ops.length = 9)
    (f : Vector Word 9 → Host.Outcome State φ ρ) :
    s.withNine op ops f = f ⟨ops.toArray, by simpa using h⟩ := by
  simp [State.withNine, nineWords_eq_some h]

theorem State.withNine_bad (s : State) (op : Opcode) {ops : List Word} (h : ops.length ≠ 9)
    (f : Vector Word 9 → Host.Outcome State φ ρ) : s.withNine op ops f = .next (s.reject op.byte .eLength) := by
  simp [State.withNine, nineWords_eq_none h]

/-! ### The meanings on legal operands -/

@[simp] theorem exec_rbPut (c : Channel) (v : BitVec 16) (s : State) :
    exec (.rbPut (chanField c) v) s =
      .next ((s.setRing c ((s.ring c).put s.w v)).respond Opcode.rbPut.byte .ok []) := by
  simp [exec, execRbPut, cellOperand]

@[simp] theorem exec_rbGet (c : Channel) (s : State) :
    exec (.rbGet (chanField c)) s =
      if s.isEmpty c = true then .next (s.respond Opcode.rbGet.byte .ok [sext32 defaultT])
      else .next ((s.setRing c ((s.ring c).drop s.w)).respond Opcode.rbGet.byte .ok
        [sext32 ((s.ring c).cellAt s.w 0)]) := by
  simp [exec, execRbGet]

@[simp] theorem exec_rbPeek (c : Channel) (s : State) :
    exec (.rbPeek (chanField c)) s =
      .next (s.respond Opcode.rbPeek.byte .ok
        [sext32 (if s.isEmpty c = true then defaultT else (s.ring c).cellAt s.w 0)]) := by
  simp [exec, execRbPeek]

@[simp] theorem exec_rbPeekn (c : Channel) (n : BitVec 16) (s : State) :
    exec (.rbPeekn (chanField c) n) s =
      .next (s.respond Opcode.rbPeekn.byte .ok
        [sext32 (if s.size c ≤ n.toNat then defaultT else (s.ring c).cellAt s.w n.toNat)]) := by
  simp only [exec, execRbPeekn, State.withChannel_chanField]
  rfl

@[simp] theorem exec_rbSize (c : Channel) (s : State) :
    exec (.rbSize (chanField c)) s = .next (s.respond Opcode.rbSize.byte .ok [natWord (s.size c)]) := by
  simp [exec, execRbSize]

@[simp] theorem exec_rbEmpty (c : Channel) (s : State) :
    exec (.rbEmpty (chanField c)) s =
      .next (s.respond Opcode.rbEmpty.byte .ok [natWord (if s.isEmpty c = true then 1 else 0)]) := by
  simp [exec, execRbEmpty]

@[simp] theorem exec_rbReset (c : Channel) (s : State) :
    exec (.rbReset (chanField c)) s = .next ((s.setRing c (s.ring c).clear).respond Opcode.rbReset.byte .ok []) := by
  simp [exec, execRbReset]

@[simp] theorem exec_rbToarray (c : Channel) (s : State) :
    exec (.rbToarray (chanField c)) s =
      .next (s.respond Opcode.rbToarray.byte .ok ((s.contents c).map sext32)) := by
  simp [exec, execRbToarray]

/-- The eight ring-buffer commands with a `ch` of 9 to 15: one rejection (R195). -/
theorem exec_bad_channel (s : State) {ch : BitVec 4} (h : 9 ≤ ch.toNat) (v : BitVec 16) (i : Instr)
    (hi : i ∈ [Instr.rbPut ch v, .rbGet ch, .rbPeek ch, .rbPeekn ch v, .rbSize ch, .rbEmpty ch, .rbReset ch,
      .rbToarray ch]) : exec i s = .next (s.reject i.opcode.byte .eChannel) := by
  simp only [List.mem_cons, List.not_mem_nil, or_false] at hi
  rcases hi with rfl | rfl | rfl | rfl | rfl | rfl | rfl | rfl <;> exact State.withChannel_bad s _ h _

theorem exec_mfFilter {ops : List Word} (h : ops.length = 9) (s : State) :
    exec (.mfFilter ops) s =
      .next ((s.pushSample ⟨ops.toArray, by simpa using h⟩).afterSelection.respond Opcode.mfFilter.byte .ok
        ((s.pushSample ⟨ops.toArray, by simpa using h⟩).medians.map sext32)) :=
  State.withNine_of s .mfFilter h _

theorem exec_mfFilter_bad {ops : List Word} (h : ops.length ≠ 9) (s : State) :
    exec (.mfFilter ops) s = .next (s.reject Opcode.mfFilter.byte .eLength) :=
  State.withNine_bad s .mfFilter h _

theorem exec_scEncode {ops : List Word} (h : ops.length = 9) (s : State) :
    exec (.scEncode ops) s =
      .next ({ s.memWriteFrame (frame s.cfg.cksum ⟨ops.toArray, by simpa using h⟩) with frmValid := true }.respond
        Opcode.scEncode.byte .ok ((frameList s.cfg.cksum ⟨ops.toArray, by simpa using h⟩).map zext32)) :=
  State.withNine_of s .scEncode h _

theorem exec_scEncode_bad {ops : List Word} (h : ops.length ≠ 9) (s : State) :
    exec (.scEncode ops) s = .next (s.reject Opcode.scEncode.byte .eLength) :=
  State.withNine_bad s .scEncode h _

theorem exec_ftSend (m : BitVec 16) (s : State) :
    exec (.ftSend m) s =
      if m.toNat = 0 then .next (s.reject Opcode.ftSend.byte .eChunk0)
      else if s.frmValid = false then .next (s.reject Opcode.ftSend.byte .eNoFrame)
      else .next (s.startSend m.toNat).chunkWrite := rfl

/-! ### What a command can do outside the rings, the generator and the work array -/

/-- What the answer of a command shares, whatever the command: it either responds at once, and then leaves the sequencer and
either leaves the frame and its flag or is an SC.ENCODE, or it is an FT.SEND that starts and writes its first chunk. -/
def Answer (i : Instr) (s t : State) : Prop :=
  (t.cfg = s.cfg ∧ t.cmdPort = s.cmdPort ∧ t.rstPort = s.rstPort) ∧
  ((∃ st d, t.rspLog = s.rspLog ++ [responsePacket i.opcode.byte st d] ∧ t.ft = s.ft ∧
      (t.txOffered = s.txOffered ∧ t.txPort = s.txPort ∧ t.txLog = s.txLog) ∧
      ((t.frmValid = s.frmValid ∧ t.frm = s.frm) ∨ (t.frmValid = true ∧ ∃ ops, i = .scEncode ops))) ∨
    ∃ m, i = .ftSend m ∧ m.toNat ≠ 0 ∧ s.frmValid = true ∧
      t = (s.startSend m.toNat).chunkWrite)

theorem Answer.of_respond {i : Instr} {s u : State} (st : Status) (d : List Word)
    (hp : u.cfg = s.cfg ∧ u.cmdPort = s.cmdPort ∧ u.rstPort = s.rstPort)
    (hr : u.rspLog = s.rspLog) (hf : u.ft = s.ft) 
    (ho : u.txOffered = s.txOffered ∧ u.txPort = s.txPort ∧ u.txLog = s.txLog)
    (hm : (u.frmValid = s.frmValid ∧ u.frm = s.frm) ∨ (u.frmValid = true ∧ ∃ ops, i = .scEncode ops)) :
    Answer i s (u.respond i.opcode.byte st d) :=
  ⟨hp, .inl ⟨st, d, by rw [State.respond_rspLog, hr], hf, ho, hm⟩⟩

/-- One response over a state that differs in nothing but rings, generator and work array. -/
theorem Answer.of_rings {i : Instr} {s u : State} (st : Status) (d : List Word)
    (h : u = { s with rings := u.rings, gen := u.gen, wa := u.wa }) : Answer i s (u.respond i.opcode.byte st d) := by
  rw [h]
  exact Answer.of_respond st d ⟨rfl, rfl, rfl⟩ rfl rfl ⟨rfl, rfl, rfl⟩ (.inl ⟨rfl, rfl⟩)

theorem answer_ring (s : State) (ch : BitVec 4) (v : BitVec 16) (i : Instr)
    (hi : i ∈ [Instr.rbPut ch v, .rbGet ch, .rbPeek ch, .rbPeekn ch v, .rbSize ch, .rbEmpty ch, .rbReset ch,
      .rbToarray ch]) : ∃ t, exec i s = .next t ∧ Answer i s t := by
  rcases channel_cases ch with ⟨c, rfl⟩ | hb
  · simp only [List.mem_cons, List.not_mem_nil, or_false] at hi
    rcases hi with rfl | rfl | rfl | rfl | rfl | rfl | rfl | rfl
    · exact ⟨_, exec_rbPut c v s, Answer.of_rings (i := .rbPut (chanField c) v) _ _ rfl⟩
    · rw [exec_rbGet]
      split_ifs
      · exact ⟨_, rfl, Answer.of_rings (i := .rbGet (chanField c)) _ _ rfl⟩
      · exact ⟨_, rfl, Answer.of_rings (i := .rbGet (chanField c)) _ _ rfl⟩
    · exact ⟨_, exec_rbPeek c s, Answer.of_rings (i := .rbPeek (chanField c)) _ _ rfl⟩
    · exact ⟨_, exec_rbPeekn c v s, Answer.of_rings (i := .rbPeekn (chanField c) v) _ _ rfl⟩
    · exact ⟨_, exec_rbSize c s, Answer.of_rings (i := .rbSize (chanField c)) _ _ rfl⟩
    · exact ⟨_, exec_rbEmpty c s, Answer.of_rings (i := .rbEmpty (chanField c)) _ _ rfl⟩
    · exact ⟨_, exec_rbReset c s, Answer.of_rings (i := .rbReset (chanField c)) _ _ rfl⟩
    · exact ⟨_, exec_rbToarray c s, Answer.of_rings (i := .rbToarray (chanField c)) _ _ rfl⟩
  · exact ⟨_, exec_bad_channel s hb v i hi, Answer.of_rings _ _ rfl⟩

/-- Every command answers a next state, of this shape. -/
theorem exec_answer (i : Instr) (s : State) : ∃ t, exec i s = .next t ∧ Answer i s t := by
  cases i with
  | rbPut ch v => exact answer_ring s ch v _ (by simp)
  | rbGet ch => exact answer_ring s ch 0 _ (by simp)
  | rbPeek ch => exact answer_ring s ch 0 _ (by simp)
  | rbPeekn ch n => exact answer_ring s ch n _ (by simp)
  | rbSize ch => exact answer_ring s ch 0 _ (by simp)
  | rbEmpty ch => exact answer_ring s ch 0 _ (by simp)
  | rbReset ch => exact answer_ring s ch 0 _ (by simp)
  | rbToarray ch => exact answer_ring s ch 0 _ (by simp)
  | mfFilter ops =>
    by_cases h : ops.length = 9
    · exact ⟨_, exec_mfFilter h s, Answer.of_rings (i := .mfFilter ops) _ _ rfl⟩
    · exact ⟨_, exec_mfFilter_bad h s, Answer.of_rings (i := .mfFilter ops) _ _ rfl⟩
  | scEncode ops =>
    by_cases h : ops.length = 9
    · exact ⟨_, exec_scEncode h s, Answer.of_respond (i := .scEncode ops) _ _ ⟨rfl, rfl, rfl⟩ rfl rfl ⟨rfl, rfl, rfl⟩
        (.inr ⟨rfl, ops, rfl⟩)⟩
    · exact ⟨_, exec_scEncode_bad h s, Answer.of_rings (i := .scEncode ops) _ _ rfl⟩
  | ftSend m =>
    rw [exec_ftSend]
    split_ifs with h1 h2
    · exact ⟨_, rfl, Answer.of_rings (i := .ftSend m) _ _ rfl⟩
    · exact ⟨_, rfl, Answer.of_rings (i := .ftSend m) _ _ rfl⟩
    · exact ⟨_, rfl, ⟨by simp, by simp, by simp⟩, .inr ⟨m, rfl, h1, by simpa using h2, rfl⟩⟩

/-! ### What one step can be -/

/-- A step is a reset event, one step of a send in flight, idling, a rejection, or the execution of
the decoded command (R13, R61, R204, R220). -/
theorem step_cases (s : State) :
    (s.resetSampled = true ∧ step s = .next s.sampleTaken.resetEvent) ∨
    (s.resetSampled = false ∧ s.ft.active = true ∧ step s = .next s.sampleTaken.sendStep) ∨
    (s.resetSampled = false ∧ s.ft.active = false ∧ s.cmdPort = [] ∧ step s = .next s.sampleTaken) ∨
    (∃ p rest, s.resetSampled = false ∧ s.ft.active = false ∧ s.cmdPort = p :: rest ∧
      ((∃ e, decode p = .error e ∧
          step s = .next ({ s.sampleTaken with cmdPort := rest }.reject (opField p.header) e)) ∨
        (∃ i, decode p = .ok i ∧ step s = exec i { s.sampleTaken with cmdPort := rest }))) := by
  unfold step
  cases hr : s.resetSampled
  · cases ha : s.ft.active
    · cases hc : s.cmdPort with
      | nil => simp [State.takeCommand, hc]
      | cons p rest =>
        refine .inr (.inr (.inr ⟨p, rest, rfl, rfl, rfl, ?_⟩))
        cases hd : decode p <;> simp [State.takeCommand, hc, runPacket, hd]
    · simp
  · simp

/-- A step of a send in flight: the wait for the answer to the chunk on offer, or the next chunk write (R171). -/
theorem sendStep_cases (s : State) :
    (s.txOffered = true ∧ s.sendStep = s) ∨ (s.txOffered = false ∧ s.sendStep = s.chunkWrite) := by
  unfold State.sendStep
  cases s.txOffered <;> simp

end Sys2Proof.Machine
end

