-- ==== Sys2Proof/Laws/Filter.lean ====
section
/-! SUPPORT. What sorting, a draw and a put into every ring can do (R131, R134, R136). -/

namespace Sys2Proof.Machine

open Sys2Proof

@[simp] theorem signedLe_iff (a b : Cell) : signedLe a b = true ↔ a.toInt ≤ b.toInt := decide_eq_true_iff

theorem sortSigned_perm (l : List Cell) : (sortSigned l).Perm l := List.perm_insertionSort _ _

theorem sortSigned_length (l : List Cell) : (sortSigned l).length = l.length := (sortSigned_perm l).length_eq

theorem sortSigned_sorted (l : List Cell) : (sortSigned l).Pairwise fun x y => x.toInt ≤ y.toInt := by
  have : Std.Total (fun x y : Cell => signedLe x y = true) := ⟨fun a b => by simpa using le_total _ _⟩
  have : IsTrans Cell (fun x y : Cell => signedLe x y = true) := ⟨fun a b c => by simpa using le_trans⟩
  exact (List.pairwise_insertionSort (fun x y : Cell => signedLe x y = true) l).imp fun h => of_decide_eq_true h

/-- Two sorted lists of the same elements are the same list. -/
theorem sorted_ext {l m : List Cell} (h : l.Perm m) (hl : l.Pairwise fun x y => x.toInt ≤ y.toInt)
    (hm : m.Pairwise fun x y => x.toInt ≤ y.toInt) : l = m :=
  List.Perm.eq_of_pairwise (fun _ _ _ _ h1 h2 => BitVec.eq_of_toInt_eq (le_antisymm h1 h2)) hl hm h

/-- `RandIndex(m)` is below `m` (R134). -/
theorem randIndex_lt (draw : Nat → Nat → Nat) {m : Nat} (g : Gen) (h : 1 ≤ m) : (randIndex draw m g).1 < m := by
  simp only [randIndex]
  split_ifs
  · omega
  · exact Nat.mod_lt _ (by omega)

@[simp] theorem randIndex_gen (draw : Nat → Nat → Nat) (m : Nat) (g : Gen) : (randIndex draw m g).2 = g.next := rfl

@[simp] theorem Gen.next_drawCtr (g : Gen) : g.next.drawCtr = g.drawCtr + 1 := rfl

/-- Taking out the element at an index keeps the others (R133 step 1). -/
theorem eraseIdx_perm (a : List Cell) {p : Nat} (hp : p < a.length) : (a.getD p defaultT :: a.eraseIdx p).Perm a := by
  rw [List.getD_eq_getElem?_getD, List.getElem?_eq_getElem hp]
  simpa using List.getElem_cons_eraseIdx_perm hp

/-- Step 1 of MF.FILTER on one ring's contents (R131). -/
theorem contents_pushSample {s : State} (h : ∀ c : Channel, (s.ring c).Inv s.w) (v : Vector Word 9) (k : Channel) :
    (s.pushSample v).contents k = listPut s.w (s.contents k) (sampleCell (v[k.val]'k.isLt)) := by
  rw [State.contents_eq, State.ring_pushSample, State.w_pushSample, Ring.contents_put (h k), State.contents_eq]

theorem pushSample_inv {s : State} (h : ∀ c : Channel, (s.ring c).Inv s.w) (v : Vector Word 9) (k : Channel) :
    ((s.pushSample v).ring k).Inv s.w := by
  rw [State.ring_pushSample]
  exact Ring.put_inv (h k) _

theorem operand_getD {ops : List Word} (h : ops.length = 9) (k : Channel) :
    (⟨ops.toArray, by simpa using h⟩ : Vector Word 9)[k.val]'k.isLt = ops.getD k.val 0 := by
  have : k.val < ops.length := by omega
  simp [List.getD_eq_getElem?_getD, List.getElem?_eq_getElem this]

end Sys2Proof.Machine
end

