-- ==== Sys2Proof/Laws/PerInstr.lean ====
section
/-! SUPPORT. The statement made for every constructor of Instr: the shape of its packet (R71 to R73, R77). -/

namespace Sys2Proof.Laws.PacketShape

open Sys2Proof

/-- The packet of a well-formed command has the header bits and the operand-word count of its row. -/
def Statement (i : Instr) : Prop :=
  i.wellFormed = true →
    (encode i).header &&& i.opcode.format.mask = i.opcode.matchValue ∧ (encode i).body.length = i.opcode.operandWords

/-- The header part, from the fields the format leaves 0. -/
theorem mask_of_fields (i : Instr) (hc : i.opcode.format.usesChannel = false → i.chBits = 0)
    (hi : usesImm i.opcode.format = false → i.immBits = 0) :
    (encode i).header &&& i.opcode.format.mask = i.opcode.matchValue := by
  rw [and_mask_iff]
  simpa [encode] using ⟨hc, hi⟩

theorem rbPut (ch : BitVec 4) (value : BitVec 16) : Statement (.rbPut ch value) := fun _ =>
  ⟨mask_of_fields _ nofun nofun, rfl⟩

theorem rbGet (ch : BitVec 4) : Statement (.rbGet ch) := fun _ =>
  ⟨mask_of_fields _ nofun fun _ => rfl, rfl⟩

theorem rbPeek (ch : BitVec 4) : Statement (.rbPeek ch) := fun _ =>
  ⟨mask_of_fields _ nofun fun _ => rfl, rfl⟩

theorem rbPeekn (ch : BitVec 4) (n : BitVec 16) : Statement (.rbPeekn ch n) := fun _ =>
  ⟨mask_of_fields _ nofun nofun, rfl⟩

theorem rbSize (ch : BitVec 4) : Statement (.rbSize ch) := fun _ =>
  ⟨mask_of_fields _ nofun fun _ => rfl, rfl⟩

theorem rbEmpty (ch : BitVec 4) : Statement (.rbEmpty ch) := fun _ =>
  ⟨mask_of_fields _ nofun fun _ => rfl, rfl⟩

theorem rbReset (ch : BitVec 4) : Statement (.rbReset ch) := fun _ =>
  ⟨mask_of_fields _ nofun fun _ => rfl, rfl⟩

theorem rbToarray (ch : BitVec 4) : Statement (.rbToarray ch) := fun _ =>
  ⟨mask_of_fields _ nofun fun _ => rfl, rfl⟩

theorem mfFilter (ops : List Word) : Statement (.mfFilter ops) := fun h =>
  ⟨mask_of_fields _ (fun _ => rfl) fun _ => rfl, of_decide_eq_true h⟩

theorem scEncode (ops : List Word) : Statement (.scEncode ops) := fun h =>
  ⟨mask_of_fields _ (fun _ => rfl) fun _ => rfl, of_decide_eq_true h⟩

theorem ftSend (max : BitVec 16) : Statement (.ftSend max) := fun _ =>
  ⟨mask_of_fields _ (fun _ => rfl) nofun, rfl⟩

end Sys2Proof.Laws.PacketShape
end

