-- ==== Sys2Proof/Laws/Transmit.lean ====
section
/-! SUPPORT. What one answer of the transport makes of the send sequencer, the chunk writes of a send,
and what a reset makes of a chunk on offer. -/

namespace Sys2Proof.Machine

open Sys2Proof

variable (f : SendState) (p : FailPolicy) (a : TxAnswer)

theorem aborts_iff : aborts p a = true ↔ p = .abort ∧ a = .failure := by
  cases p <;> cases a <;> simp [aborts]

@[simp] theorem aborts_success : aborts p .success = false := by cases p <;> rfl

/-- When an answer ends the send (R171, R174). -/
theorem SendState.ends_iff : f.ends p a = true ↔ (p = .abort ∧ a = .failure) ∨ 38 ≤ f.off + f.len := by
  simp [SendState.ends, aborts_iff]

theorem SendState.not_ends_iff : f.ends p a = false ↔ ¬(p = .abort ∧ a = .failure) ∧ f.off + f.len < 38 := by
  rw [← Bool.not_eq_true, SendState.ends_iff, not_or, Nat.not_le]

@[simp] theorem SendState.answered_active : (f.answered p a).active = f.active := rfl
@[simp] theorem SendState.answered_max : (f.answered p a).max = f.max := rfl
@[simp] theorem SendState.answered_cnt : (f.answered p a).cnt = f.cnt + 1 := rfl
@[simp] theorem SendState.answered_ok_success : (f.answered p .success).ok = f.ok + f.len := rfl
@[simp] theorem SendState.answered_ok_failure : (f.answered p .failure).ok = f.ok := rfl
@[simp] theorem SendState.answered_failed_success : (f.answered p .success).failed = f.failed := rfl
@[simp] theorem SendState.answered_failed_failure : (f.answered p .failure).failed = true := rfl

theorem SendState.answered_off :
    (f.answered p a).off = if p = .abort ∧ a = .failure then f.off else f.off + f.len := by
  simp only [SendState.answered, aborts_iff]

theorem SendState.len_le_max : f.len ≤ f.max := Nat.min_le_left _ _

theorem SendState.len_le_rest : f.len ≤ 38 - f.off := Nat.min_le_right _ _

theorem SendState.len_pos {f : SendState} (hm : 1 ≤ f.max) (ho : f.off < 38) : 1 ≤ f.len := by
  unfold SendState.len; omega

/-- A chunk that does not reach the frame's end has length `max` (R172). -/
theorem SendState.len_eq_max {f : SendState} (h : f.off + f.len < 38) : f.len = f.max := by
  unfold SendState.len at *; omega

/-- A chunk that reaches the frame's end ends there (R172). -/
theorem SendState.off_add_len {f : SendState} (ho : f.off ≤ 38) (h : 38 ≤ f.off + f.len) : f.off + f.len = 38 := by
  unfold SendState.len at *; omega

/-- While a send is in flight and no reset comes, a step is one step of the send (R61, R178). -/
theorem step_send {s : State} (hr : s.resetSampled = false) (ha : s.ft.active = true) :
    step s = .next s.sampleTaken.sendStep := by
  simp [step, hr, ha]

/-- A chunk on offer that the transport does not answer: the send waits (R173). -/
theorem sendStep_waits {s : State} (ho : s.txOffered = true) : s.sendStep = s := by
  simp [State.sendStep, ho]

/-- With none on offer the next chunk is written (R171). -/
theorem sendStep_writes {s : State} (ho : s.txOffered = false) : s.sendStep = s.chunkWrite := by
  simp [State.sendStep, ho]

/-- A chunk write without an answer (R173). -/
theorem chunkWrite_unanswered {s : State} (h : s.nextAnswer = none) : s.chunkWrite = s.answerTaken.chunkUnanswered := by
  simp [State.chunkWrite, h]

/-- A chunk write after whose answer the send goes on (R171). -/
theorem chunkWrite_goesOn {s : State} {a : TxAnswer} (h : s.nextAnswer = some a)
    (he : s.ft.ends s.cfg.failPolicy a = false) : s.chunkWrite = s.answerTaken.chunkAnswered a := by
  simp [State.chunkWrite, h, he]

/-- A chunk write whose answer ends the send (R171, R175). -/
theorem chunkWrite_ends {s : State} {a : TxAnswer} (h : s.nextAnswer = some a)
    (he : s.ft.ends s.cfg.failPolicy a = true) : s.chunkWrite = (s.answerTaken.chunkAnswered a).finishSend := by
  simp [State.chunkWrite, h, he]

/-- A reset that finds a chunk on offer records it unanswered (R222). -/
theorem resetEvent_offered {s : State} (ha : s.ft.active = true) (ho : s.txOffered = true) :
    s.resetEvent.txLog = s.txLog ++ [{ bytes := s.memRead s.ft.off s.ft.len, answer := none }] := by
  simp [State.abandoned, State.offered, ha, ho]

/-- A reset that finds none on offer records none (R222). -/
theorem resetEvent_notOffered {s : State} (h : s.ft.active = false ∨ s.txOffered = false) :
    s.resetEvent.txLog = s.txLog := by
  rcases h with h | h <;> simp [State.abandoned, State.offered, h]

theorem State.memRead_length (s : State) {off n : Nat} (h : off + n ≤ 38) : (s.memRead off n).length = n := by
  simp [State.memRead]; omega

end Sys2Proof.Machine
end

