-- ==== Sys2Proof/Tests/Slice0.lean ====
section
/-! SUPPORT. The model's own tests: well-formedness and decoding of words written out from 30_encoding.md, one step of each
command against 95_test_vectors.md, and a witness for the hypotheses of every statement that has some. -/

namespace Sys2Proof.Machine.Tests

open Sys2Proof Sys2Proof.Machine

/-! ### Helpers -/

/-- A configuration with window `2 * half + 1` and the other defaults. -/
def cfgOf (half : Fin 32768) : Config := { Config.default with halfWindow := half }

/-- A block of a configuration with the same ring on every channel. -/
def withRings (cfg : Config) (r : Ring) : State := { State.ofConfig cfg with rings := Vector.replicate 9 r }

/-- A block with window 5 and the given ring on channel 0. -/
def ring5 (buf : List Cell) (rd wr : Nat) (full : Bool) : State :=
  (State.ofConfig (cfgOf 2)).setRing 0 { buf := buf, rd := rd, wr := wr, full := full }

/-- A block with a frame waiting, a sequencer, an answer to come for each of the next chunks, and no chunk on offer. -/
def sending (cfg : Config) (f : SendState) (tx : List TxAnswer) : State :=
  { State.ofConfig cfg with frmValid := true, ft := f, txPort := tx.map some }

/-- The same with a chunk on offer. -/
def offering (cfg : Config) (f : SendState) (tx : List TxAnswer) : State := { sending cfg f tx with txOffered := true }

/-- A block with packets at its CMD port. -/
def fed (ps : List Packet) : State := { State.reset with cmdPort := ps }

/-- What an observer makes of an outcome that is a next state. -/
def observe {α : Type} (f : State → α) : Host.Outcome State Fault Refusal → Option α
  | .next t => some (f t)
  | .fault _ => none
  | .refused _ => none

/-- A packet of a header alone. -/
def one (h : Word) : Packet := { header := h, body := [] }

/-- Nine words. -/
def nine : List Word := [1, 2, 3, 4, 5, 6, 7, 8, 9]

/-- The nine float patterns of V31. -/
def floats31 : List Word :=
  [0x00000000, 0x3F800000, 0xBF800000, 0x3F000000, 0xC0000000, 0x42C80000, 0x3E800000, 0xBE000000, 0x3FC00000]

/-- The frame of V31. -/
def frame31 : Vector Byte 38 :=
  #v[0xFF, 0x00, 0x00, 0x00, 0x00, 0x00, 0x00, 0x80, 0x3F, 0x00, 0x00, 0x80, 0xBF, 0x00, 0x00, 0x00, 0x3F, 0x00, 0x00,
    0x00, 0xC0, 0x00, 0x00, 0xC8, 0x42, 0x00, 0x00, 0x80, 0x3E, 0x00, 0x00, 0x00, 0xBE, 0x00, 0x00, 0xC0, 0x3F, 0xD1]

/-! ### Well-formedness: one ill-formed term for each check -/

theorem test_wellFormed_channel :
    (Instr.rbPut 8 0).wellFormed = true ∧ (Instr.rbPut 9 0).wellFormed = false ∧ (Instr.rbGet 9).wellFormed = false ∧
    (Instr.rbPeek 15).wellFormed = false ∧ (Instr.rbPeekn 9 0).wellFormed = false ∧
    (Instr.rbSize 10).wellFormed = false ∧ (Instr.rbEmpty 11).wellFormed = false ∧
    (Instr.rbReset 12).wellFormed = false ∧ (Instr.rbToarray 13).wellFormed = false := by decide

theorem test_wellFormed_operands :
    (Instr.mfFilter nine).wellFormed = true ∧ (Instr.mfFilter nine.tail).wellFormed = false ∧
    (Instr.scEncode (0 :: nine)).wellFormed = false ∧ (Instr.ftSend 0).wellFormed = true := by decide

/-! ### Decoding: op 31:24, ch 23:20, rsv 19:16, imm 15:0 (R71), one word per row of R73 -/

theorem test_decode_rbPut : decodeTableWord 32 0b00000001_0011_0000_1000000000000101 = some (.rbPut 3 0x8005) := by decide
theorem test_decode_rbGet : decodeTableWord 32 0b00000010_0001_0000_0000000000000000 = some (.rbGet 1) := by decide
theorem test_decode_rbPeek : decodeTableWord 32 0b00000011_0010_0000_0000000000000000 = some (.rbPeek 2) := by decide
theorem test_decode_rbPeekn : decodeTableWord 32 0b00000100_1000_0000_0000000000000011 = some (.rbPeekn 8 3) := by decide
theorem test_decode_rbSize : decodeTableWord 32 0b00000101_0100_0000_0000000000000000 = some (.rbSize 4) := by decide
theorem test_decode_rbEmpty : decodeTableWord 32 0b00000110_0101_0000_0000000000000000 = some (.rbEmpty 5) := by decide
theorem test_decode_rbReset : decodeTableWord 32 0b00000111_0110_0000_0000000000000000 = some (.rbReset 6) := by decide
theorem test_decode_rbToarray : decodeTableWord 32 0b00001000_0111_0000_0000000000000000 = some (.rbToarray 7) := by decide
theorem test_decode_mfFilter :
    decodeTableWord 64 (0b00010000_0000_0000_0000000000000000 + 7 * 2 ^ 32) = some (.mfFilter [7, 0, 0, 0, 0, 0, 0, 0, 0]) := by
  decide
theorem test_decode_scEncode :
    decodeTableWord 32 0b00100000_0000_0000_0000000000000000 = some (.scEncode [0, 0, 0, 0, 0, 0, 0, 0, 0]) := by decide
theorem test_decode_ftSend : decodeTableWord 32 0b00110000_0000_0000_0000000000010100 = some (.ftSend 20) := by decide

/-- V50: the six kinds of packet the decoder refuses, and the order of the checks (R203). -/
theorem test_decode_rejections :
    decode (one 0x09F10001) = .error .eOpcode ∧ decode (one 0) = .error .eOpcode ∧
    decode { header := 0x02910000, body := [5] } = .error .eLength ∧ decode (one 0x02910000) = .error .eReserved ∧
    decode (one 0x02900000) = .error .eChannel ∧ decode (one 0x02000001) = .error .eReserved ∧
    decode (one 0x01080005) = .error .eReserved ∧ decode (one 0x10000000) = .error .eLength ∧
    decode { header := 0x10000000, body := 0 :: nine } = .error .eLength ∧
    decode { header := 0x10100000, body := nine } = .error .eReserved ∧
    decode { header := 0x20000001, body := nine } = .error .eReserved ∧ decode (one 0x30100000) = .error .eReserved := by
  decide

/-- The opcode table's words of other lengths: bits past `nbits` are 0. -/
theorem test_tableWord_short : packetOfTableWord 32 (0x20000000 + 9 * 2 ^ 32) = ⟨0x20000000, List.replicate 9 0⟩ := by decide

/-- V31 and P1 #3 as source text. -/
theorem test_assemble_text :
    assembleText "sc.encodef 0.0, 1.0, -1.0, 0.5, -2.0, 100.0, 0.25, -0.125, 1.5 ; V31\nrb.put ax, -20".toList =
      some [⟨0x20000000, floats31⟩, one 0x0100FFEC] := by decide +kernel

/-! ### Ring-buffer commands (V10 to V17) -/

/-- V10, put number 6: eviction and the wrap. -/
theorem test_rbPut_evicts :
    observe (fun t => (t.ring 0, t.contents 0, t.rspLog)) (exec (.rbPut 0 6) (ring5 [1, 2, 3, 4, 5] 0 0 true)) =
      some (⟨[6, 2, 3, 4, 5], 1, 1, true⟩, [2, 3, 4, 5, 6], [one 0x01000000]) := by decide

/-- V16: with `W = 1` every put after the first evicts. -/
theorem test_rbPut_window_one :
    observe (fun t => t.ring 0) (exec (.rbPut 0 6) (withRings (cfgOf 0) ⟨[5], 0, 0, true⟩)) = some ⟨[6], 0, 0, true⟩ := by
  decide

/-- V11: a get from a full ring whose read position is past the wrap. -/
theorem test_rbGet_full :
    observe (fun t => (t.ring 0, t.rspLog)) (exec (.rbGet 0) (ring5 [6, 7, 3, 4, 5] 2 2 true)) =
      some (⟨[6, 7, 3, 4, 5], 3, 2, false⟩, [⟨0x02000001, [3]⟩]) := by decide

/-- V12: a get from a drained ring answers 0 and leaves the positions. -/
theorem test_rbGet_empty :
    observe (fun t => (t.ring 0, t.rspLog)) (exec (.rbGet 0) (ring5 [6, 7, 3, 4, 5] 2 2 false)) =
      some (⟨[6, 7, 3, 4, 5], 2, 2, false⟩, [⟨0x02000001, [0]⟩]) := by decide

/-- V15: the oldest cell is 0x8000, returned sign-extended. -/
theorem test_rbPeek_sign :
    observe (fun t => t.rspLog) (exec (.rbPeek 0) (ring5 [0x8000, 0x7FFF, 0xFFFF, 0, 0] 0 4 false)) =
      some [⟨0x03000001, [0xFFFF8000]⟩] := by decide

/-- V11: `n = 3` is the newest element, read across the wrap. -/
theorem test_rbPeekn_wrap :
    observe (fun t => t.rspLog) (exec (.rbPeekn 0 3) (ring5 [6, 7, 3, 4, 5] 3 2 false)) = some [⟨0x04000001, [7]⟩] := by
  decide

/-- V11: `n = size` is out of range although its cell exists. -/
theorem test_rbPeekn_out_of_range :
    observe (fun t => t.rspLog) (exec (.rbPeekn 0 4) (ring5 [6, 7, 3, 4, 5] 3 2 false)) = some [⟨0x04000001, [0]⟩] := by
  decide

/-- V14: size and empty in every position case. -/
theorem test_size_cases :
    ([(0, 0, false), (0, 0, true), (3, 3, false), (3, 3, true), (0, 4, false), (3, 1, false), (4, 0, false)].map
      fun (rd, wr, full) => ((⟨[], rd, wr, full⟩ : Ring).size 5, (⟨[], rd, wr, full⟩ : Ring).isEmpty)) =
      [(0, true), (5, false), (0, true), (5, false), (4, false), (3, false), (1, false)] := by decide

/-- R105's example: 5 + 1 - 3 = 3. -/
theorem test_rbSize_wrapped :
    observe (fun t => t.rspLog) (exec (.rbSize 0) (ring5 [1, 2, 3, 4, 5] 3 1 false)) = some [⟨0x05000001, [3]⟩] := by decide

/-- V12: a drained ring is empty; a full one with the same positions is not. -/
theorem test_rbEmpty_drained :
    observe (fun t => t.rspLog) (exec (.rbEmpty 0) (ring5 [6, 7, 3, 4, 5] 2 2 false)) = some [⟨0x06000001, [1]⟩] ∧
    observe (fun t => t.rspLog) (exec (.rbEmpty 0) (ring5 [6, 7, 3, 4, 5] 2 2 true)) = some [⟨0x06000001, [0]⟩] := by
  decide

/-- V13: positions 0, the cells stay. -/
theorem test_rbReset_keeps_cells :
    observe (fun t => (t.ring 0, t.rspLog)) (exec (.rbReset 0) (ring5 [6, 7, 3, 4, 5] 2 2 true)) =
      some (⟨[6, 7, 3, 4, 5], 0, 0, false⟩, [one 0x07000000]) := by decide

/-- V10: the read wraps from cell 4 to cell 0. -/
theorem test_rbToarray_wrap :
    observe (fun t => t.rspLog) (exec (.rbToarray 0) (ring5 [6, 7, 3, 4, 5] 2 2 true)) =
      some [⟨0x08000005, [3, 4, 5, 6, 7]⟩] := by decide

/-- V12: an empty ring answers no data word. -/
theorem test_rbToarray_empty :
    observe (fun t => t.rspLog) (exec (.rbToarray 0) (ring5 [6, 7, 3, 4, 5] 2 2 false)) = some [one 0x08000000] := by decide

/-! ### The median filter (V20, V21, P2) -/

/-- V21: traces with given draws; the draw's number picks the index. -/
theorem test_select_traces :
    let draws := fun (l : List Nat) (n _ : Nat) => l.getD n 0
    let run := fun l (a : List Cell) r => (select (draws l) a.length a r ⟨0, 0⟩).1.toInt
    let passes := fun l (a : List Cell) r => (select (draws l) a.length a r ⟨0, 0⟩).2.drawCtr
    run [4, 0, 1] [1, 2, 3, 4, 100] 2 = 3 ∧ passes [4, 0, 1] [1, 2, 3, 4, 100] 2 = 3 ∧
    run [2] [1, 2, 3, 4, 100] 2 = 3 ∧ passes [2] [1, 2, 3, 4, 100] 2 = 1 ∧
    run [1, 0, 1, 0] [3, 1, 3, 1, 3, 1] 3 = 3 ∧ passes [1, 0, 1, 0] [3, 1, 3, 1, 3, 1] 3 = 4 ∧
    run [0, 0] [5, 5, 5] 1 = 5 ∧ passes [0, 0] [5, 5, 5] 1 = 2 ∧
    run [0, 0, 2, 0, 0] [0x8000, 0x7FFF, 0xFFFF, 0, 1] 2 = 0 ∧
    passes [0, 0, 2, 0, 0] [0x8000, 0x7FFF, 0xFFFF, 0, 1] 2 = 5 := by decide +kernel

/-- V20: the selected value by sorting; signed order, both even ranks. -/
theorem test_median_values :
    median .upper [0x8000, 0x7FFF, 0xFFFF, 0, 1] = 0 ∧ median .upper [1, 2, 3, 4] = 3 ∧ median .lower [1, 2, 3, 4] = 2 ∧
    median .upper [2, 1] = 2 ∧ median .lower [2, 1] = 1 ∧ median .upper [9] = 9 ∧
    median .upper [3, 1, 3, 1, 3, 1] = 3 ∧ median .lower [3, 1, 3, 1, 3, 1] = 1 := by decide

/-- S4 and P2 #5, #6 on one lane: the window after the put is `[2, 3, 4, 100, 5]`. -/
theorem test_mfFilter_full_window :
    observe (fun t => (t.contents 0, t.rspLog))
        (exec (.mfFilter [5, 0, 0, 0, 0, 0, 0, 0, 0]) (ring5 [1, 2, 3, 4, 100] 0 0 true)) =
      some ([2, 3, 4, 100, 5], [⟨0x10000009, [4, 0, 0, 0, 0, 0, 0, 0, 0]⟩]) := by decide +kernel

/-- P2 #2, lane 3: bits 31:16 of an operand are ignored, and `[0, -32768]` gives 0 under UPPER. -/
theorem test_mfFilter_lanes :
    observe (fun t => t.rspLog)
        (exec (.mfFilter [0xABCD8000, 0xFFFF, 0, 0, 0, 0, 0, 0, 0xFFFF8000]) (ring5 [0, 0, 0, 0, 0] 0 1 false)) =
      some [⟨0x10000009, [0, 0xFFFFFFFF, 0, 0, 0, 0, 0, 0, 0xFFFF8000]⟩] := by decide +kernel

/-! ### The codec (V30 to V37) -/

/-- V33. -/
theorem test_checksum_vectors :
    crc8 [] = 0 ∧ crc8 [0x01] = 0x5E ∧ crc8 [0x02] = 0xBC ∧ crc8 [0x80] = 0x8C ∧ crc8 [0xFF] = 0x35 ∧
    crc8 [0xFF, 0x00] = 0x81 ∧ crc8 [0x01, 0x00] = 0xC4 ∧
    crc8 [0x31, 0x32, 0x33, 0x34, 0x35, 0x36, 0x37, 0x38, 0x39] = 0xA1 ∧
    add8 [0x31, 0x32, 0x33, 0x34, 0x35, 0x36, 0x37, 0x38, 0x39] = 0xDD := by decide +kernel

/-- V31: the frame buffer, its flag and the response. -/
theorem test_scEncode_frame :
    observe (fun t => (t.frm, t.frmValid, t.rspLog)) (exec (.scEncode floats31) State.reset) =
      some (frame31, true, [⟨0x20000026, frame31.toList.map (BitVec.setWidth 32)⟩]) := by decide +kernel

/-- V30 and V31 under ADD8: the checksum bytes 0x74 and 0x81. -/
theorem test_scEncode_checksums :
    observe (fun t => t.frm[37]) (exec (.scEncode (List.replicate 9 0)) State.reset) = some 0x74 ∧
    observe (fun t => t.frm[37]) (exec (.scEncode floats31) (State.ofConfig { Config.default with cksum := .add8 })) =
      some 0x81 := by decide +kernel

/-- V35. -/
theorem test_decodeFrame_errors :
    decodeFrame .crc8 (frame31.toList.take 37) = .error .badLength ∧
    decodeFrame .crc8 (0xFE :: frame31.toList.tail) = .error .badStart ∧
    decodeFrame .crc8 (flipBit frame31.toList 5 4) = .error .checksumMismatch ∧
    decodeFrame .crc8 (flipBit frame31.toList 37 0) = .error .checksumMismatch ∧
    decodeFrame .crc8 frame31.toList =
      .ok #v[0x00000000, 0x3F800000, 0xBF800000, 0x3F000000, 0xC0000000, 0x42C80000, 0x3E800000, 0xBE000000, 0x3FC00000] := by
  decide +kernel

/-- V37: two flips the CRC does not detect. -/
theorem test_two_bit_error_accepted : crc8 ((flipBit (flipBit frame31.toList 1 0) 16 7).take 37) = 0xD1 := by decide +kernel

/-! ### The transmitter (V40 to V43, V61) -/

/-- P3 #1, #2: the two rejections. V41: the step that accepts `ft.send 20` writes bytes 0 to 19. V40: for `max` 38 it makes
the only write and responds OK [38, 1]. V62: without an answer the chunk is on offer and no response is out. -/
theorem test_ftSend_command :
    let s := { State.reset with frm := frame31, frmValid := true }
    observe (fun t => t.rspLog) (exec (.ftSend 0) State.reset) = some [one 0x30050000] ∧
    observe (fun t => t.rspLog) (exec (.ftSend 20) State.reset) = some [one 0x30060000] ∧
    observe (fun t => (t.ft, t.txLog, t.rspLog)) (exec (.ftSend 20) { s with txPort := [some .success] }) =
      some (⟨true, 20, 20, 20, 1, false⟩, [⟨frame31.toList.take 20, some .success⟩], []) ∧
    observe (fun t => (t.frmValid, t.ft.active, t.rspLog)) (exec (.ftSend 38) { s with txPort := [some .success] }) =
      some (false, false, [⟨0x30000002, [38, 1]⟩]) ∧
    observe (fun t => (t.ft.active, t.offered, t.rspLog)) (exec (.ftSend 20) s) =
      some (true, some (frame31.toList.take 20), []) := by decide +kernel

/-- V41: the second chunk write records bytes 20 to 37 and ends the send with OK [38, 2]. V42 rows 1 and 2: a failed first write
ends it with E_TXFAIL [0, 1] under ABORT; under CONTINUE the send goes on. V62: a chunk on offer without an answer waits. -/
theorem test_send_steps :
    observe (fun t => (t.frmValid, t.ft.active, t.txLog, t.rspLog))
        (step { sending Config.default ⟨true, 20, 20, 20, 1, false⟩ [.success] with frm := frame31 }) =
      some (false, false, [⟨frame31.toList.drop 20, some .success⟩], [⟨0x30000002, [38, 2]⟩]) ∧
    observe (fun t => (t.ft.active, t.rspLog))
        (step (sending Config.default ⟨true, 0, 20, 0, 0, false⟩ [.failure, .success])) =
      some (false, [⟨0x30070002, [0, 1]⟩]) ∧
    observe (fun t => (t.ft, t.rspLog))
        (step (sending { Config.default with failPolicy := .goOn } ⟨true, 0, 20, 0, 0, false⟩ [.failure, .success])) =
      some (⟨true, 20, 20, 0, 1, true⟩, []) ∧
    observe (fun t => (t.ft, t.txOffered, t.rspLog))
        (step { offering Config.default ⟨true, 20, 20, 20, 1, false⟩ [.success] with cmdPort := [one 0x02000000] }) =
      some (⟨true, 20, 20, 20, 1, false⟩, true, []) := by decide +kernel

/-- V61: a reset with write 3 on offer: no response, the offer stays unanswered, no frame, no send. -/
theorem test_reset_during_send :
    observe (fun t => (t.rspLog, t.txLog, t.frmValid, t.ft.active))
        (step { offering Config.default ⟨true, 14, 7, 14, 2, false⟩ [] with frm := frame31, rstPort := [true] }) =
      some ([], [⟨(frame31.toList.drop 14).take 7, none⟩], false, false) := by decide +kernel

/-- R222, R220: a reset after the answer to write 2 and before the offer of write 3: no chunk is offered, no response sent. -/
theorem test_reset_between_chunks :
    observe (fun t => (t.rspLog, t.txLog, t.frmValid, t.ft.active))
        (step { sending Config.default ⟨true, 14, 7, 14, 2, false⟩ [.success] with rstPort := [true] }) =
      some ([], [], false, false) := by decide +kernel

/-! ### One step from reset on a placed command -/

theorem test_step_placed_command :
    observe (fun t => t.rspLog) (step (State.reset.withFetchWord 32 0x05000000)) = some [⟨0x05000001, [0]⟩] ∧
    observe (fun t => t.rspLog) (step (State.reset.withFetchWord 32 0x02900000)) = some [one 0x02040000] := by decide

/-! ### Witnesses: states and operands that meet the hypotheses of each statement that has some -/

/-- A full and a partly filled ring with the positions past the wrap, and an empty one. -/
def fullRing : Ring := ⟨[6, 7, 3, 4, 5], 2, 2, true⟩
def partRing : Ring := ⟨[6, 7, 3, 4, 5], 3, 2, false⟩
def emptyRing : Ring := ⟨[6, 7, 3, 4, 5], 4, 4, false⟩

/-- A reset-free idle block with one packet. -/
abbrev Idle (s : State) (p : Packet) (rest : List Packet) : Prop :=
  s.resetSampled = false ∧ s.ft.active = false ∧ s.cmdPort = p :: rest

theorem witness_DecodeEncodeAgree :
    ∀ i ∈ [Instr.rbPut 8 0xFFFF, .rbGet 0, .rbPeek 8, .rbPeekn 0 0xFFFF, .rbSize 8, .rbEmpty 8, .rbReset 8, .rbToarray 8,
      .mfFilter nine, .scEncode nine, .ftSend 0, .ftSend 0xFFFF], i.wellFormed = true := by decide

theorem witness_DecodedPacketIsEncoding : decode (one 0x0180FFFF) = .ok (.rbPut 8 0xFFFF) := by decide

/-- One packet per clause: `rsv`, `ch`, `imm`, and one that passes. -/
theorem witness_ReservedBitsRejected :
    ∀ p ∈ [one 0x01080005, one 0x30100014, one 0x02000001, one 0x0180FFFF],
      decode p ≠ .error .eOpcode ∧ decode p ≠ .error .eLength := by decide

/-- `ch` 8 and 9, and a command without a channel. -/
theorem witness_ChannelRangeRejected :
    ∀ p ∈ [one 0x02800000, one 0x02900000, one 0x30000014],
      decode p ≠ .error .eOpcode ∧ decode p ≠ .error .eLength ∧ decode p ≠ .error .eReserved := by decide

theorem witness_AssembledLinesDecode :
    ((-32768 : Int) ≤ -32768 ∧ (-32768 : Int) ≤ 65535) ∧ ((-32768 : Int) ≤ 65535 ∧ (65535 : Int) ≤ 65535) ∧
    (0 : Nat) ≤ 65535 ∧ (65535 : Nat) ≤ 65535 := by decide

theorem witness_StepRunsDecoded :
    Idle (fed [one 0x02300000, one 0]) (one 0x02300000) [one 0] ∧ decode (one 0x02300000) = .ok (.rbGet 3) := by decide

theorem witness_RejectionChangesNothing :
    Idle (fed [one 0x02900000]) (one 0x02900000) [] ∧ decode (one 0x02900000) = .error .eChannel := by decide

theorem witness_BadChannelChangesNothing : 9 ≤ (9 : BitVec 4).toNat ∧ 9 ≤ (15 : BitVec 4).toNat := by decide

/-- Both clauses: a command that responds, and an FT.SEND that starts. -/
theorem witness_OneResponsePerCommand :
    Idle (fed [one 0x02300000]) (one 0x02300000) [] ∧
    Idle { fed [one 0x30000014] with frmValid := true } (one 0x30000014) [] := by decide

theorem witness_IdleKeepsState :
    State.reset.resetSampled = false ∧ State.reset.ft.active = false ∧ State.reset.cmdPort = [] := by decide

/-- Every clause: a reset with a chunk on offer, one in a send without, and one without a send. -/
theorem witness_ResetEventResult :
    let s := { offering Config.default ⟨true, 14, 7, 14, 2, false⟩ [] with rstPort := [true] }
    let v := { sending Config.default ⟨true, 14, 7, 14, 2, false⟩ [.success] with rstPort := [true] }
    let u := { State.reset with rstPort := [true] }
    (s.resetSampled = true ∧ s.ft.active = true ∧ s.txOffered = true) ∧
    (v.resetSampled = true ∧ v.ft.active = true ∧ v.txOffered = false) ∧
    (u.resetSampled = true ∧ u.ft.active = false) := by decide

/-- The ring hypothesis of RbPutResult, RbGetResult, RbPeekResult, RbSizeResult, RbEmptyResult, RbToarrayResult and
GetsDrainRing, on a full, a partly filled and an empty ring. -/
theorem witness_ring_hypothesis :
    ∀ r ∈ [fullRing, partRing, emptyRing],
      (((withRings (cfgOf 2) r).ring 8).Inv (withRings (cfgOf 2) r).w) := by decide

theorem witness_RbPutResult :
    let s := withRings (cfgOf 2) fullRing
    (s.ring 0).Inv s.w ∧ (s.ring 0).full = true := by decide

/-- Both clauses: an empty ring, and one with an oldest element. -/
theorem witness_RbGetResult :
    let s := withRings (cfgOf 2) emptyRing
    let u := withRings (cfgOf 2) fullRing
    (s.ring 0).Inv s.w ∧ s.contents 0 = [] ∧ (u.ring 0).Inv u.w ∧ u.contents 0 = 3 :: [4, 5, 6, 7] := by decide

/-- The last clause at the last index. -/
theorem witness_RbToarrayResult :
    let s := withRings (cfgOf 2) partRing
    (s.ring 0).Inv s.w ∧ (3 : BitVec 16).toNat < s.size 0 := by decide

theorem witness_PutsKeepLastWindow :
    let s := withRings (cfgOf 2) emptyRing
    (s.ring 0).Inv s.w ∧ s.contents 0 = [] := by decide

theorem witness_RingCommandFrame (i : Instr) (hi : i ∈ [Instr.rbPut (chanField 8) 1, .rbGet (chanField 8),
    .rbPeek (chanField 8), .rbPeekn (chanField 8) 1, .rbSize (chanField 8), .rbEmpty (chanField 8),
    .rbReset (chanField 8), .rbToarray (chanField 8)]) :
    observe (fun _ => true) (exec i (withRings (cfgOf 2) fullRing)) = some true := by
  revert i
  decide

/-- Two blocks whose rings lie differently and hold the same elements. -/
theorem witness_OnlyContentsMatter :
    let s := withRings (cfgOf 2) ⟨[6, 7, 3, 4, 5], 3, 2, false⟩
    let t := withRings (cfgOf 2) ⟨[4, 5, 6, 7, 9], 0, 4, false⟩
    (Instr.rbGet 0).opcode ≠ .scEncode ∧ (Instr.rbGet 0).opcode ≠ .ftSend ∧ s.Inv ∧ t.Inv ∧ s.cfg = t.cfg ∧
    s.rings ≠ t.rings ∧ ∀ c : Channel, s.contents c = t.contents c :=
  ⟨by decide, by decide, by decide, by decide, rfl, by decide, by decide⟩

theorem witness_RankValues : (1 : Nat) ≤ 1 ∧ 5 % 2 = 1 ∧ ((1 : Nat) ≤ 2 ∧ 2 % 2 = 0) := by decide

theorem witness_SelectIgnoresDraws :
    2 < ([100, 4, 3, 0xFFFF, 1] : List Cell).length ∧
    ([0xFFFF, 1, 3, 4, 100] : List Cell).Perm [100, 4, 3, 0xFFFF, 1] ∧
    ([0xFFFF, 1, 3, 4, 100] : List Cell).Pairwise (fun x y => x.toInt ≤ y.toInt) := by decide

theorem witness_SelectPassBound : 0 < ([9] : List Cell).length ∧ 4 < ([1, 2, 3, 4, 100] : List Cell).length := by decide

/-- The hypotheses of MfFilterResult, MfFilterReturnsSelect and MfFilterDrawBound, on rings full and empty; and a sorted
list of the new contents. -/
theorem witness_MfFilterResult :
    nine.length = 9 ∧ (∀ c : Channel, ((withRings (cfgOf 2) fullRing).ring c).Inv (withRings (cfgOf 2) fullRing).w) ∧
    (∀ c : Channel, (State.reset.ring c).Inv State.reset.w) ∧
    observe (fun t => decide (([1, 4, 5, 6, 7] : List Cell).Perm (t.contents 0)))
      (exec (.mfFilter nine) (withRings (cfgOf 2) fullRing)) = some true ∧
    ([1, 4, 5, 6, 7] : List Cell).Pairwise (fun x y => x.toInt ≤ y.toInt) := by decide +kernel

/-- Both an operand list of nine words and one of eight give a next state. -/
theorem witness_MfFilterFrame :
    observe (fun _ => true) (exec (.mfFilter nine) State.reset) = some true ∧
    observe (fun _ => true) (exec (.mfFilter nine.tail) State.reset) = some true ∧ nine.tail.length ≠ 9 := by decide

theorem witness_FilterWindowIsLastSamples :
    (∀ c : Channel, (State.reset.ring c).Inv State.reset.w) ∧ ∀ c : Channel, State.reset.contents c = [] := by decide

theorem witness_ConstantInputPassesThrough :
    let s := withRings (cfgOf 2) ⟨[0xFFFD, 0xFFFD, 9, 9, 9], 0, 2, false⟩
    let ops : List Word := List.replicate 9 0x0000FFFD
    ops.length = 9 ∧ (∀ x ∈ ops, x.extractLsb' 0 16 = 0xFFFD) ∧ (∀ c : Channel, (s.ring c).Inv s.w) ∧
    ∀ c : Channel, ∀ x ∈ s.contents c, x = 0xFFFD := by
  intro s ops
  have h : ∀ c : Channel, s.contents c = [0xFFFD, 0xFFFD] := by decide
  exact ⟨rfl, by simp [ops], by decide, fun c => by rw [h c]; simp⟩

/-- Both clauses: the single largest and the single smallest, at the least window size above 1. -/
theorem witness_OutlierIsNeverMedian :
    ([5] ++ (900 : Cell) :: [5]).length % 2 = 1 ∧ 1 < ([5] ++ (900 : Cell) :: [5]).length ∧
    (∀ y ∈ ([5] ++ [5] : List Cell), y.toInt < (900 : Cell).toInt) ∧
    (∀ y ∈ ([5] ++ [5] : List Cell), (0xFC7C : Cell).toInt < y.toInt) := by simp

theorem witness_ScEncodeResult : nine.length = 9 := by decide

theorem witness_ScEncodeFrame :
    observe (fun _ => true) (exec (.scEncode nine) State.reset) = some true ∧
    observe (fun _ => true) (exec (.scEncode nine.tail) State.reset) = some true := by decide

/-- Each error of Decode occurs, and so does acceptance: `test_decodeFrame_errors`. -/
theorem witness_CrcIsLinear : ([0xFF, 0x00] : List Byte).length = ([0x01, 0x80] : List Byte).length := by decide

theorem witness_SingleBitFlipDetected :
    36 < (frame31.toList.take 37).length ∧ (0 : Nat) < 8 ∧ (7 : Nat) < 8 := by decide

/-- One witness per clause. -/
theorem witness_FtSendRejections :
    (0 : BitVec 16) = 0 ∧ ((1 : BitVec 16) ≠ 0 ∧ State.reset.frmValid = false) := by decide

theorem witness_FtSendStarts :
    (1 : BitVec 16) ≠ 0 ∧ (0xFFFF : BitVec 16) ≠ 0 ∧ ({ State.reset with frmValid := true } : State).frmValid = true := by
  decide

/-- Every clause of WritesChunk: no answer, and both answers under both policies to a chunk that ends the frame and to one that
does not. -/
theorem witness_SendStepResult :
    ∀ pol ∈ [FailPolicy.abort, .goOn], ∀ as ∈ [[], [TxAnswer.success], [.failure]],
      ∀ f ∈ [(⟨true, 0, 20, 0, 0, false⟩ : SendState), ⟨true, 20, 20, 20, 1, false⟩, ⟨true, 37, 1, 37, 37, false⟩],
        let s := sending { Config.default with failPolicy := pol } f as
        s.resetSampled = false ∧ s.ft.active = true ∧ s.txOffered = false ∧ s.txPort.headD none = as.head? := by decide

theorem witness_ChunksJoinToFrame : (1 : Nat) ≤ 1 ∧ (1 : Nat) ≤ 38 ∧ (1 : Nat) ≤ 65535 ∧ 0 + 1 < chunkCount 20 := by decide

/-- An idle block with a frame waiting, an FT.SEND at the CMD port, and the transport's answers to come. -/
def toSend (pol : FailPolicy) (h : Word) (tx : List (Option TxAnswer)) : State :=
  { State.ofConfig { Config.default with failPolicy := pol } with
    frmValid := true, cmdPort := [one h, one 0x02000000], txPort := tx }

/-- Both alternatives: CONTINUE with failures (V42 row 2), and all answers success under ABORT (V41). -/
theorem witness_WholeSendRuns :
    let s := toSend .goOn 0x30000014 ([TxAnswer.failure, .success].map some ++ [none])
    let u := toSend .abort 0x30000014 ([TxAnswer.success, .success].map some ++ [])
    decode (one 0x30000014) = .ok (.ftSend 20) ∧ (20 : BitVec 16) ≠ 0 ∧
    (s.ft.active = false ∧ s.cmdPort = one 0x30000014 :: [one 0x02000000] ∧ s.frmValid = true ∧
      [TxAnswer.failure, .success].length = chunkCount (20 : BitVec 16).toNat ∧
      s.txPort = [TxAnswer.failure, .success].map some ++ [none] ∧
      noResetFor (chunkCount (20 : BitVec 16).toNat) s = true ∧ s.cfg.failPolicy = .goOn) ∧
    (u.ft.active = false ∧ u.cmdPort = one 0x30000014 :: [one 0x02000000] ∧ u.frmValid = true ∧
      [TxAnswer.success, .success].length = chunkCount (20 : BitVec 16).toNat ∧
      u.txPort = [TxAnswer.success, .success].map some ++ [] ∧
      noResetFor (chunkCount (20 : BitVec 16).toNat) u = true ∧ ∀ a ∈ [TxAnswer.success, .success], a = .success) := by
  decide

/-- V42 row 6: the third of chunks of 7 bytes fails. -/
theorem witness_AbortedSendRuns :
    let s := toSend .abort 0x30000007 (List.replicate 2 (some .success) ++ some .failure :: [])
    decode (one 0x30000007) = .ok (.ftSend 7) ∧ (7 : BitVec 16) ≠ 0 ∧ s.ft.active = false ∧
    s.cmdPort = one 0x30000007 :: [one 0x02000000] ∧ s.frmValid = true ∧ 2 < chunkCount (7 : BitVec 16).toNat ∧
    s.txPort = List.replicate 2 (some .success) ++ some .failure :: [] ∧ noResetFor (2 + 1) s = true ∧
    s.cfg.failPolicy = .abort := by decide

/-- The first alternative: an OK end, an aborted end, an end under CONTINUE after a failure. -/
theorem witness_SendStatusMeaning :
    ∀ x ∈ [(FailPolicy.abort, (⟨true, 20, 20, 20, 1, false⟩ : SendState), TxAnswer.success, false),
        (.abort, ⟨true, 20, 20, 20, 1, false⟩, .failure, true), (.goOn, ⟨true, 20, 20, 0, 1, true⟩, .success, true)],
      let s := sending { Config.default with failPolicy := x.1 } x.2.1 [x.2.2.1]
      s.Inv ∧ s.resetSampled = false ∧ s.ft.active = true ∧
      observe (fun t => (t.ft.active, t.ft.failed)) (step s) = some (false, x.2.2.2) := by decide +kernel

/-- The second alternative: a send of one chunk ends with the step that accepts it, with either answer. -/
theorem witness_SendStatusMeaning_atOnce :
    ∀ a ∈ [TxAnswer.success, .failure],
      let s := toSend .abort 0x30000026 [some a]
      s.Inv ∧ (38 : BitVec 16) ≠ 0 ∧ s.frmValid = true ∧
      observe (fun t => (t.ft.active, t.ft.failed)) (exec (.ftSend 38) s) = some (false, a == .failure) := by decide +kernel

/-- With a chunk on offer and no answer. -/
theorem witness_NothingElseDuringSend :
    let s := { offering Config.default ⟨true, 0, 20, 0, 0, false⟩ [] with cmdPort := [one 0x02000000] }
    s.resetSampled = false ∧ s.ft.active = true ∧ s.txOffered = true ∧ s.txPort = [] := by decide

/-- A rejected FT.SEND, one whose send goes on, and one whose send ends at once. -/
theorem witness_FtSendFrame :
    observe (fun _ => true) (exec (.ftSend 0) State.reset) = some true ∧
    observe (fun t => t.ft.active) (exec (.ftSend 7) { State.reset with frmValid := true }) = some true ∧
    observe (fun t => t.ft.active) (exec (.ftSend 38) { State.reset with frmValid := true, txPort := [some .failure] }) =
      some false := by decide

/-- Both ends of the range, and an even window. -/
theorem witness_ConstructionNeedsOddWindow :
    (construct 1 .upper 0 .crc8 .abort).isSome = true ∧ (construct 65535 .upper 0 .crc8 .abort).isSome = true ∧
    (construct 10 .upper 0 .crc8 .abort).isSome = false ∧ (construct 65537 .upper 0 .crc8 .abort).isSome = false := by
  decide +kernel

/-- A safe state with a send in flight, and its step. -/
theorem witness_StepKeepsSafe :
    let s := { sending Config.default ⟨true, 20, 20, 20, 1, false⟩ [.failure] with
      rspLog := [one 0x01000000], txLog := [⟨[0xFF], some .success⟩] }
    s.Safe ∧ ∃ t, step s = .next t := ⟨by decide, _, rfl⟩

/-- Every clause: a step that writes the frame, and one that ends a send. -/
theorem witness_OnlyEncodeWritesFrame :
    let s := fed [⟨0x20000000, floats31⟩]
    let u := sending Config.default ⟨true, 20, 20, 20, 1, false⟩ [.success]
    s.resetSampled = false ∧ observe (fun t => (decide (t.frm = s.frm), t.frmValid)) (step s) = some (false, true) ∧
    u.resetSampled = false ∧ u.frmValid = true ∧ observe (fun t => t.frmValid) (step u) = some false := by decide +kernel

/-- Two states that look alike and differ in positions, cells, frame bytes, sequencer, generator and work array. -/
theorem witness_HiddenStateIsUnobservable :
    let s := withRings (cfgOf 2) ⟨[6, 7, 3, 4, 5], 3, 2, false⟩
    let t := { withRings (cfgOf 2) ⟨[4, 5, 6, 7, 9], 0, 4, false⟩ with
      frm := frame31, ft := ⟨false, 38, 7, 38, 6, false⟩, gen := ⟨5, 9⟩, wa := [1, 2, 3, 4, 5] }
    s.Inv ∧ t.Inv ∧ s.LooksLike t ∧ s.rings ≠ t.rings ∧ s.frm ≠ t.frm ∧ s.ft ≠ t.ft ∧ s.gen ≠ t.gen ∧ s.wa ≠ t.wa := by
  refine ⟨by decide, by decide, ?_, by decide, by decide, by decide, by decide, by decide⟩
  exact ⟨rfl, by decide, rfl, nofun, rfl, nofun, rfl, rfl, rfl, rfl, rfl, rfl⟩

end Sys2Proof.Machine.Tests
end

section
/-! The obligations about a send of FT.SEND (R171 to R176) and about the construction of a block (R8): one chunk write,
the state in the middle of a send, and a whole run of one. -/

namespace Sys2Proof.Machine

open Sys2Proof

/-! ### One chunk write -/

/-- The sequencer after an answer, with the case of each field written out (R171, R174). -/
theorem SendState.answered_eq (f : SendState) (p : FailPolicy) (a : TxAnswer) :
    f.answered p a =
      { active := f.active, off := if a = .failure ∧ p = .abort then f.off else f.off + f.len, max := f.max,
        ok := if a = .success then f.ok + f.len else f.ok, cnt := f.cnt + 1,
        failed := f.failed || decide (a = .failure) } := by
  cases a <;> cases p <;> simp [SendState.answered, SendState.okAfter, failedAfter, aborts]

/-- A chunk write is what `WritesChunk` says (R171, R173 to R175). -/
theorem writesChunk_chunkWrite (s : State) : WritesChunk s s.chunkWrite := by
  refine ⟨fun h => chunkWrite_unanswered h, fun a h => ⟨fun hend => ?_, fun hend => ?_⟩⟩
  · have he : s.ft.ends s.cfg.failPolicy a = true := (SendState.ends_iff ..).2 (hend.imp_left And.symm)
    rw [chunkWrite_ends h he]
    simp only [State.finishSend, State.chunkAnswered, SendState.answered_eq]
    rfl
  · have he : s.ft.ends s.cfg.failPolicy a = false := by
      rw [← Bool.not_eq_true, SendState.ends_iff]
      exact mt (Or.imp_left And.symm) hend
    rw [chunkWrite_goesOn h he]
    simp only [State.chunkAnswered, SendState.answered_eq]
    rfl

/-- A step of a send with no chunk on offer and no reset is one chunk write (R13, R171). -/
theorem step_chunkWrite {s : State} (hr : s.resetSampled = false) (ha : s.ft.active = true)
    (ho : s.txOffered = false) : step s = .next s.sampleTaken.chunkWrite := by
  rw [step_send hr ha, sendStep_writes (s := s.sampleTaken) ho]

/-- Settles O48: the step is a chunk write, and a chunk write is what `WritesChunk` says. -/
theorem sendStepResult : Obligations.SendStepResult := fun s hr ha ho =>
  ⟨_, step_chunkWrite hr ha ho, writesChunk_chunkWrite s.sampleTaken⟩

/-! ### What FT.SEND leaves unchanged -/

/-- The three outcomes of FT.SEND: two rejections, or a start with the first chunk write (R171, R196, R197). -/
theorem exec_ftSend_cases {m : BitVec 16} {s t : State} (h : exec (.ftSend m) s = .next t) :
    (m = 0 ∧ t = s.reject Opcode.ftSend.byte .eChunk0) ∨
    (m ≠ 0 ∧ s.frmValid = false ∧ t = s.reject Opcode.ftSend.byte .eNoFrame) ∨
    (m ≠ 0 ∧ s.frmValid = true ∧ t = (s.startSend m.toNat).chunkWrite) := by
  have hm : m.toNat = 0 ↔ m = 0 := by simp [← BitVec.toNat_inj]
  rw [exec_ftSend] at h
  split_ifs at h with h0 hv <;> cases h
  · exact .inl ⟨hm.1 h0, rfl⟩
  · exact .inr (.inl ⟨mt hm.2 h0, hv, rfl⟩)
  · exact .inr (.inr ⟨mt hm.2 h0, by simpa using hv, rfl⟩)

/-- A chunk write adds at most one transaction (R86, R171). -/
theorem chunkWrite_txLog (s : State) :
    s.chunkWrite.txLog = s.txLog ∨ ∃ r, s.chunkWrite.txLog = s.txLog ++ [r] := by
  rcases s.chunkWrite_cases with ⟨_, h⟩ | ⟨_, _, _, h⟩ | ⟨_, _, _, h⟩ <;> rw [h]
  · exact .inl rfl
  · exact .inr ⟨_, rfl⟩
  · exact .inr ⟨_, rfl⟩

/-- Only the end of the send clears the flag and responds (R31, R175). -/
theorem chunkWrite_active {s : State} (h : s.chunkWrite.ft.active = true) :
    s.chunkWrite.frmValid = s.frmValid ∧ s.chunkWrite.rspLog = s.rspLog := by
  rcases s.chunkWrite_cases with ⟨_, hw⟩ | ⟨_, _, _, hw⟩ | ⟨_, _, _, hw⟩ <;> rw [hw] at h ⊢
  · exact ⟨rfl, rfl⟩
  · exact ⟨rfl, rfl⟩
  · cases h

/-- Settles O54, by the three outcomes of FT.SEND. -/
theorem ftSendFrame : Obligations.FtSendFrame := by
  intro s t m h
  rcases exec_ftSend_cases h with ⟨rfl, rfl⟩ | ⟨hm, hv, rfl⟩ | ⟨hm, hv, rfl⟩
  · simp [State.reject]
  · simp [State.reject, hv]
  · have hlog := chunkWrite_txLog (s.startSend m.toNat)
    have hactive := chunkWrite_active (s := s.startSend m.toNat)
    simpa [(show ¬m = 0#16 from hm), hv] using And.intro hlog hactive

/-! ### Counting the chunks of a frame (R172) -/

/-- The chunks of a frame are those that start inside it. -/
theorem lt_chunkCount_iff {m k : Nat} (hm : 1 ≤ m) : k < chunkCount m ↔ k * m < 38 := by
  rw [chunkCount, Nat.lt_div_iff_mul_lt hm]
  omega

/-- The accepted bytes with one answer more: a success adds the length of its chunk. -/
theorem acceptedBytes_concat (m : Nat) (as : List TxAnswer) (a : TxAnswer) (i : Nat) :
    acceptedBytes m i (as ++ [a]) =
      if a = .success then acceptedBytes m i as + min m (38 - (i + as.length) * m) else acceptedBytes m i as := by
  induction as generalizing i with
  | nil => cases a <;> simp [acceptedBytes]
  | cons b bs ih =>
    have hi : i + 1 + bs.length = i + (b :: bs).length := by simp; omega
    cases b <;> cases a <;> simp [acceptedBytes, ih, hi, Nat.add_assoc]

/-- From chunk `i` on no more bytes are accepted than the answered chunks and the frame have, and as many exactly when
no answer is a failure; the chunks answered all start inside the frame. -/
theorem acceptedBytes_le_and_eq_iff {m : Nat} (hm : 1 ≤ m) (as : List TxAnswer) (i : Nat)
    (hin : ∀ k < as.length, (i + k) * m < 38) :
    acceptedBytes m i as ≤ min (as.length * m) (38 - i * m) ∧
      ((∀ a ∈ as, a = .success) ↔ acceptedBytes m i as = min (as.length * m) (38 - i * m)) := by
  induction as generalizing i with
  | nil => simp [acceptedBytes]
  | cons a as ih =>
    have hi : i * m < 38 := hin 0 (by simp)
    obtain ⟨hle, hiff⟩ := ih (i + 1) fun k hk => by
      have := hin (k + 1) (by simpa using hk)
      rwa [show i + 1 + k = i + (k + 1) by omega]
    simp only [List.length_cons, Nat.succ_mul] at hle hiff ⊢
    cases a with
    | success =>
      simp only [acceptedBytes, List.forall_mem_cons, true_and, hiff]
      omega
    | failure =>
      simp only [acceptedBytes, List.forall_mem_cons, reduceCtorEq, false_and, false_iff]
      omega

/-- The accepted bytes of successes only (R174). -/
theorem acceptedBytes_replicate_success {m j : Nat} (hm : 1 ≤ m) (hj : j * m < 38) :
    acceptedBytes m 0 (List.replicate j .success) = j * m := by
  have hin : ∀ k < (List.replicate j TxAnswer.success).length, (0 + k) * m < 38 := fun k hk => by
    rw [Nat.zero_add]
    exact (Nat.mul_le_mul_right m (Nat.le_of_lt (by simpa using hk))).trans_lt hj
  have h := (acceptedBytes_le_and_eq_iff hm _ 0 hin).2.1 fun _ ha => List.eq_of_mem_replicate ha
  rw [h, List.length_replicate]
  omega

/-- The transactions of chunks 0, 1, ... answered so, in order (R86, R172). -/
def chunkRecords (f : Vector Byte 38) (m : Nat) (as : List TxAnswer) : List TxRecord :=
  (List.range as.length).map fun i => { bytes := chunkBytes f m i, answer := as[i]? }

theorem chunkRecords_concat (f : Vector Byte 38) (m : Nat) (as : List TxAnswer) (a : TxAnswer) :
    chunkRecords f m (as ++ [a]) =
      chunkRecords f m as ++ [{ bytes := chunkBytes f m as.length, answer := some a }] := by
  have hpre : ∀ i ∈ List.range as.length, (as ++ [a])[i]? = as[i]? := fun i hi =>
    List.getElem?_append_left (List.mem_range.1 hi)
  simp +contextual [chunkRecords, List.range_succ, hpre]

theorem chunkRecords_replicate (f : Vector Byte 38) (m j : Nat) (a : TxAnswer) :
    chunkRecords f m (List.replicate j a) =
      (List.range j).map fun i => { bytes := chunkBytes f m i, answer := some a } := by
  simp +contextual [chunkRecords, List.getElem?_replicate]

/-- `ft.off` after the answer to chunk `i`: where the chunk starts if the send aborts, else where it ends (R171,
R174). -/
def offAfter (p : FailPolicy) (m i : Nat) (a : TxAnswer) : Nat :=
  if a = .failure ∧ p = .abort then i * m else i * m + min m (38 - i * m)

theorem offAfter_abort (m i : Nat) : offAfter .abort m i .failure = i * m := by
  simp [offAfter]

/-- Under CONTINUE no answer aborts, and a success never does (R174). -/
theorem not_abort_of {p : FailPolicy} {a : TxAnswer} (h : p = .goOn ∨ a = .success) :
    ¬(a = .failure ∧ p = .abort) := by
  rintro ⟨rfl, rfl⟩
  simp at h

theorem offAfter_of_not_abort {p : FailPolicy} {a : TxAnswer} (h : p = .goOn ∨ a = .success) (m i : Nat) :
    offAfter p m i a = i * m + min m (38 - i * m) := if_neg (not_abort_of h)

/-! ### The state in the middle of a send -/

/-- The block `s` when a send with chunk size `m` has had the answers `as`, one a step, and has not ended: `ft.off` is
`off` (R171). -/
def State.afterAnswers (s : State) (m : Nat) (as : List TxAnswer) (off : Nat) : State :=
  { s with
    ft        := { active := true, off := off, max := m, ok := acceptedBytes m 0 as, cnt := as.length,
                   failed := decide (TxAnswer.failure ∈ as) }
    txOffered := false
    txPort    := s.txPort.drop as.length
    rstPort   := s.rstPort.drop as.length
    txLog     := s.txLog ++ chunkRecords s.frm m as }

theorem afterAnswers_nil (s : State) (m : Nat) : s.afterAnswers m [] 0 = s.startSend m := by
  simp [State.afterAnswers, State.startSend, SendState.start, acceptedBytes, chunkRecords]

/-- One more answer to the chunk at its place in R172's order: the offset moves past the chunk unless the send aborts
(R171, R174). -/
theorem chunkAnswered_afterAnswers (s : State) (m : Nat) (as : List TxAnswer) (a : TxAnswer) :
    (s.afterAnswers m as (as.length * m)).sampleTaken.answerTaken.chunkAnswered a =
      s.afterAnswers m (as ++ [a]) (offAfter s.cfg.failPolicy m as.length a) := by
  have hfailed : decide (a = .failure) = decide (TxAnswer.failure = a) := decide_eq_decide.2 eq_comm
  simp [offAfter, hfailed, State.afterAnswers, State.chunkAnswered, State.answerTaken, State.sampleTaken,
    SendState.answered_eq, SendState.len, acceptedBytes_concat, chunkRecords_concat, State.memRead, chunkBytes]

/-- The end of a send whose answers so far, `as`, came before `rest` (R171, R175, R176). -/
theorem finishSend_afterAnswers {s : State} {as : List TxAnswer} {rest : List (Option TxAnswer)}
    (htx : s.txPort = as.map some ++ rest) (m off : Nat) :
    (s.afterAnswers m as off).finishSend =
      { s with
        ft        := { active := false, off := off, max := m, ok := acceptedBytes m 0 as, cnt := as.length,
                       failed := decide (TxAnswer.failure ∈ as) }
        frmValid  := false
        txOffered := false
        txPort    := rest
        rstPort   := s.rstPort.drop as.length
        txLog     := s.txLog ++ chunkRecords s.frm m as
        rspLog    := s.rspLog ++ [responsePacket 0x30 (sendStatus (decide (TxAnswer.failure ∈ as)))
          [BitVec.ofNat 32 (acceptedBytes m 0 as), BitVec.ofNat 32 as.length]] } := by
  have hrest : s.txPort.drop as.length = rest := by
    rw [htx]
    exact List.drop_left' (List.length_map ..)
  rw [← hrest]
  rfl

/-- A reset sample that `noResetFor` covers is inactive (R220). -/
theorem headD_drop_of_noResetFor {s : State} {n k : Nat} (h : noResetFor n s = true) (hk : k < n) :
    (s.rstPort.drop k).headD false = false := by
  rw [List.headD_eq_head?_getD, List.head?_drop]
  cases hb : s.rstPort[k]? with
  | none => rfl
  | some b =>
    have hmem : b ∈ s.rstPort.take n := List.mem_of_getElem? (i := k) (by rw [List.getElem?_take_of_lt hk, hb])
    simpa using List.all_eq_true.1 h b hmem

section
variable {s : State} {m : Nat} {as : List TxAnswer} {a : TxAnswer} {rest : List (Option TxAnswer)}

/-- A step in the middle of a send is a chunk write. -/
theorem step_afterAnswers {off n : Nat} (hr : noResetFor n s = true) (hk : as.length < n) :
    step (s.afterAnswers m as off) = .next (s.afterAnswers m as off).sampleTaken.chunkWrite :=
  step_chunkWrite (headD_drop_of_noResetFor hr hk) rfl rfl

/-- The next answer in the middle of a send is the next of those to come. -/
theorem nextAnswer_afterAnswers {off : Nat} (htx : s.txPort = (as ++ [a]).map some ++ rest) :
    (s.afterAnswers m as off).sampleTaken.nextAnswer = some a := by
  simp [State.nextAnswer, State.sampleTaken, State.afterAnswers, htx]

/-- A chunk that neither aborts nor reaches the frame's end: the send goes on (R171). -/
theorem step_afterAnswers_goesOn {n : Nat} (hr : noResetFor n s = true) (hk : as.length < n)
    (htx : s.txPort = (as ++ [a]).map some ++ rest) (hp : s.cfg.failPolicy = .goOn ∨ a = .success)
    (hin : (as.length + 1) * m < 38) :
    step (s.afterAnswers m as (as.length * m)) =
      .next (s.afterAnswers m (as ++ [a]) ((as ++ [a]).length * m)) := by
  rw [Nat.succ_mul] at hin
  have hlen : as.length * m + min m (38 - as.length * m) = (as ++ [a]).length * m := by
    simp only [List.length_append, List.length_singleton, Nat.succ_mul]
    omega
  rw [step_afterAnswers hr hk, chunkWrite_goesOn (nextAnswer_afterAnswers htx), chunkAnswered_afterAnswers,
    offAfter_of_not_abort hp, hlen]
  rw [SendState.not_ends_iff]
  refine ⟨mt And.symm (not_abort_of hp), ?_⟩
  show as.length * m + min m (38 - as.length * m) < 38
  omega

/-- A chunk that aborts or reaches the frame's end: the send ends (R171, R174). -/
theorem step_afterAnswers_ends {n : Nat} (hr : noResetFor n s = true) (hk : as.length < n)
    (htx : s.txPort = (as ++ [a]).map some ++ rest)
    (hend : (s.cfg.failPolicy = .abort ∧ a = .failure) ∨ 38 ≤ (as.length + 1) * m) :
    step (s.afterAnswers m as (as.length * m)) =
      .next (s.afterAnswers m (as ++ [a]) (offAfter s.cfg.failPolicy m as.length a)).finishSend := by
  rw [Nat.succ_mul] at hend
  rw [step_afterAnswers hr hk, chunkWrite_ends (nextAnswer_afterAnswers htx), chunkAnswered_afterAnswers]
  rw [SendState.ends_iff]
  refine hend.imp_right fun h => ?_
  show 38 ≤ as.length * m + min m (38 - as.length * m)
  omega

end

/-! ### A run of a send -/

theorem runSteps_succ_of_step {s t : State} (h : step s = .next t) (n : Nat) : runSteps (n + 1) s = runSteps n t := by
  simp [runSteps, h]

theorem runSteps_succ_congr {s t : State} (h : step s = step t) (n : Nat) :
    runSteps (n + 1) s = runSteps (n + 1) t := by
  simp [runSteps, h]

/-- Answers `bs` that do not end the send take one step each (R13, R171). -/
theorem runSteps_afterAnswers {s : State} {m n : Nat} {rest : List (Option TxAnswer)} (bs : List TxAnswer) (k : Nat)
    (as : List TxAnswer) (hr : noResetFor n s = true) (hn : (as ++ bs).length ≤ n)
    (htx : s.txPort = (as ++ bs).map some ++ rest) (hp : s.cfg.failPolicy = .goOn ∨ ∀ b ∈ bs, b = .success)
    (hin : (as ++ bs).length * m < 38) :
    runSteps (bs.length + k) (s.afterAnswers m as (as.length * m)) =
      runSteps k (s.afterAnswers m (as ++ bs) ((as ++ bs).length * m)) := by
  induction bs generalizing as rest with
  | nil => simp
  | cons b bs ih =>
    have hsplit : as ++ b :: bs = (as ++ [b]) ++ bs := by simp
    rw [hsplit] at hn htx hin ⊢
    have hbs : (as ++ [b] ++ bs).length = as.length + 1 + bs.length := by
      simp only [List.length_append, List.length_singleton]
    have hstep : step (s.afterAnswers m as (as.length * m)) =
        .next (s.afterAnswers m (as ++ [b]) ((as ++ [b]).length * m)) := by
      refine step_afterAnswers_goesOn (rest := bs.map some ++ rest) hr ?_ (by simpa using htx)
        (hp.imp_right fun h => h b (by simp)) ?_
      · omega
      · exact (Nat.mul_le_mul_right m (by omega)).trans_lt hin
    rw [show (b :: bs).length + k = (bs.length + k) + 1 by simp; omega, runSteps_succ_of_step hstep]
    exact ih (as ++ [b]) hn htx (hp.imp_right fun h c hc => h c (by simp [hc])) hin

theorem toNat_pos_of_ne_zero {m : BitVec 16} (hm : m ≠ 0) : 1 ≤ m.toNat := by
  have : m.toNat ≠ 0 := by simpa [← BitVec.toNat_inj] using hm
  omega

/-- An idle block with a waiting frame and an FT.SEND of chunk size `m` next at the CMD port, `cmds` after it (R61,
R171). -/
structure AcceptsSend (s : State) (p : Packet) (cmds : List Packet) (m : BitVec 16) : Prop where
  idle    : s.ft.active = false
  port    : s.cmdPort = p :: cmds
  decodes : decode p = .ok (.ftSend m)
  max     : m ≠ 0
  frame   : s.frmValid = true

section
variable {s : State} {p : Packet} {cmds : List Packet} {m : BitVec 16}

/-- The step that accepts FT.SEND is the first chunk write of the send it starts (R13, R171). -/
theorem step_accepts (h : AcceptsSend s p cmds m) (hr : s.resetSampled = false) :
    step s = step (({ s with cmdPort := cmds } : State).afterAnswers m.toNat [] 0) := by
  have hm : m.toNat ≠ 0 := Nat.ne_of_gt (toNat_pos_of_ne_zero h.max)
  rw [afterAnswers_nil, step_chunkWrite (s := ({ s with cmdPort := cmds } : State).startSend m.toNat) hr rfl rfl]
  simp [step, hr, h.idle, State.takeCommand, h.port, runPacket, h.decodes, exec_ftSend, hm, h.frame, State.sampleTaken,
    State.startSend]

/-- A send whose answers `as` do not end it and whose next answer `a` does: one step for each of them (R13, R171,
R174). -/
theorem runSteps_send {as : List TxAnswer} {a : TxAnswer} {rest : List (Option TxAnswer)} (h : AcceptsSend s p cmds m)
    (htx : s.txPort = (as ++ [a]).map some ++ rest) (hr : noResetFor (as.length + 1) s = true)
    (hp : s.cfg.failPolicy = .goOn ∨ ∀ b ∈ as, b = .success) (hin : as.length * m.toNat < 38)
    (hend : (s.cfg.failPolicy = .abort ∧ a = .failure) ∨ 38 ≤ (as.length + 1) * m.toNat) :
    runSteps (as.length + 1) s =
      .next (({ s with cmdPort := cmds } : State).afterAnswers m.toNat (as ++ [a])
        (offAfter s.cfg.failPolicy m.toNat as.length a)).finishSend := by
  have hr0 : s.resetSampled = false := headD_drop_of_noResetFor (k := 0) hr (by omega)
  have hrun := runSteps_afterAnswers (s := { s with cmdPort := cmds }) (m := m.toNat) (rest := some a :: rest) as 1 []
    hr (by simp) (by simpa using htx) hp (by simpa using hin)
  simp only [List.length_nil, Nat.zero_mul, List.nil_append] at hrun
  rw [runSteps_succ_congr (step_accepts h hr0), hrun]
  exact runSteps_succ_of_step
    (step_afterAnswers_ends (s := { s with cmdPort := cmds }) (rest := rest) hr (by omega) htx hend) 0

end

/-- Settles O50: the run up to the last chunk's answer, which ends the send at the frame's end. -/
theorem wholeSendRuns : Obligations.WholeSendRuns := by
  intro s p cmds m as rest ha hc hd hm hv hlen htx hr hp
  have hm1 := toNat_pos_of_ne_zero hm
  have hin : ∀ k < as.length, (0 + k) * m.toNat < 38 := fun k hk => by
    rw [Nat.zero_add]
    exact (lt_chunkCount_iff hm1).1 (hlen ▸ hk)
  have hfull : 38 ≤ as.length * m.toNat := by
    simpa [hlen] using mt (lt_chunkCount_iff (k := as.length) hm1).2
  constructor
  · rw [← hlen] at hr ⊢
    obtain rfl | ⟨init, a, rfl⟩ := as.eq_nil_or_concat'
    · simp at hfull
    simp only [List.length_append, List.length_singleton] at hr hin hfull ⊢
    have hlast : init.length * m.toNat < 38 := by simpa using hin init.length (by omega)
    have hoff : offAfter s.cfg.failPolicy m.toNat init.length a = 38 := by
      rw [offAfter_of_not_abort (hp.imp_right fun h => h a (by simp))]
      rw [Nat.succ_mul] at hfull
      omega
    have hpre : s.cfg.failPolicy = .goOn ∨ ∀ b ∈ init, b = .success :=
      hp.imp_right fun h b hb => h b (by simp [hb])
    rw [runSteps_send ⟨ha, hc, hd, hm, hv⟩ htx hr hpre hlast (.inr hfull), hoff,
      finishSend_afterAnswers (s := { s with cmdPort := cmds }) htx]
    simp [chunkRecords, sendStatus]
  · rw [(acceptedBytes_le_and_eq_iff hm1 as 0 hin).2]
    omega

/-- Settles O51: the run up to the first failure, which aborts. -/
theorem abortedSendRuns : Obligations.AbortedSendRuns := by
  intro s p cmds m j rest ha hc hd hm hv hj htx hr hp
  have htx' : s.txPort = (List.replicate j TxAnswer.success ++ [TxAnswer.failure]).map some ++ rest := by
    simpa using htx
  have hm1 := toNat_pos_of_ne_zero hm
  have hin : j * m.toNat < 38 := (lt_chunkCount_iff hm1).1 hj
  have hrun := runSteps_send (as := List.replicate j .success) (a := .failure) (rest := rest)
    ⟨ha, hc, hd, hm, hv⟩ htx' (by simpa using hr) (.inr fun b hb => List.eq_of_mem_replicate hb) (by simpa using hin)
    (.inl ⟨hp, rfl⟩)
  rw [hp, offAfter_abort, List.length_replicate, finishSend_afterAnswers (s := { s with cmdPort := cmds }) htx'] at hrun
  rw [hrun]
  simp [chunkRecords_concat, chunkRecords_replicate, acceptedBytes_concat, acceptedBytes_replicate_success hm1 hin,
    sendStatus]

/-! ### Constructing a block -/

/-- A window has a half exactly when it is odd and 1 to 65535 (R8). -/
theorem halfOfWindow_isSome_iff (w : Nat) :
    (halfOfWindow w).isSome = true ↔ w % 2 = 1 ∧ 1 ≤ w ∧ w ≤ 65535 := by
  simp only [halfOfWindow, Option.isSome_dite]
  omega

theorem window_of_halfOfWindow {w : Nat} {h : Fin 32768} (hw : halfOfWindow w = some h) : 2 * h.val + 1 = w := by
  unfold halfOfWindow at hw
  split_ifs at hw with hodd
  cases hw
  show 2 * (w / 2) + 1 = w
  omega

/-- A block is constructed exactly from a half of the window. -/
theorem construct_eq_map (w : Nat) (e : EvenRank) (seed : Nat) (k : Checksum) (p : FailPolicy) :
    construct w e seed k p = (halfOfWindow w).map fun h =>
      State.ofConfig { halfWindow := h, evenRank := e, prngSeed := seed, cksum := k, failPolicy := p } := by
  unfold construct
  cases halfOfWindow w <;> rfl

/-- Settles O55: construction succeeds exactly when the window has a half. -/
theorem constructionNeedsOddWindow : Obligations.ConstructionNeedsOddWindow := by
  intro w e seed k p
  rw [construct_eq_map]
  refine ⟨by rw [Option.isSome_map, halfOfWindow_isSome_iff], fun s hs => ?_⟩
  obtain ⟨h, hw, rfl⟩ := Option.map_eq_some_iff.1 hs
  exact ⟨window_of_halfOfWindow hw, rfl, rfl, rfl, rfl⟩

end Sys2Proof.Machine
end

section
/-! The obligations about the state as a whole: reset values, RB.SIZE and RB.EMPTY, the invariant every step keeps, and
what no observer of the ports can see (R24 to R39). The ring commands and MF.FILTER are first said in terms of contents
alone. -/

namespace Sys2Proof.Machine

open Sys2Proof

/-! ### Reset (R38) -/

/-- Settles O56: every ring of a reset block is empty, no send is in flight, and the records are empty. -/
theorem resetStateSafe : Obligations.ResetStateSafe := fun cfg => by
  refine ⟨⟨fun c => ?_, List.length_replicate, ?_, nofun, nofun⟩, nofun, nofun⟩
  · rw [State.ring_ofConfig, State.w_ofConfig]
    exact Ring.init_inv cfg.w_pos
  · show SendState.init.InRange
    decide

/-- Settles O15: the fields of the reset state; with `frm_valid` 0, FT.SEND takes its second rejection. -/
theorem resetValues : Obligations.ResetValues := by
  intro cfg
  refine ⟨fun c => ?_, rfl, rfl, rfl, fun m hm => ?_⟩
  · rw [State.size_eq, State.isEmpty, State.ring_ofConfig]
    exact ⟨rfl, rfl, rfl, Ring.size_init _, rfl⟩
  · have hm0 : m.toNat ≠ 0 := Nat.ne_of_gt (toNat_pos_of_ne_zero hm)
    rw [exec_ftSend, if_neg hm0]
    rfl

/-! ### Size and emptiness (R26, R27) -/

/-- Settles O21: the answer is the length of the contents, and the length is R26's formula read in the integers. -/
theorem rbSizeResult : Obligations.RbSizeResult := by
  intro s c h
  have hlen : (s.contents c).length = s.size c := Ring.contents_length _ _
  rw [hlen]
  refine ⟨exec_rbSize c s, Ring.size_le h, ?_⟩
  obtain ⟨-, hrd, hwr, -⟩ := h
  rw [State.size_eq, Ring.size]
  split_ifs <;> omega

theorem State.isEmpty_iff {s : State} {c : Channel} (h : (s.ring c).Inv s.w) : s.isEmpty c = true ↔ s.size c = 0 :=
  Ring.isEmpty_iff h

/-- Settles O22: emptiness, size 0 and coinciding positions of a ring that is not full are one condition. -/
theorem rbEmptyResult : Obligations.RbEmptyResult := by
  intro s c h
  have hnil : s.contents c = [] ↔ s.isEmpty c = true := (Ring.contents_eq_nil_iff _ _).trans (Ring.isEmpty_iff h).symm
  have hpos : s.isEmpty c = true ↔ (s.ring c).rd = (s.ring c).wr ∧ (s.ring c).full = false := by
    simp [State.isEmpty, Ring.isEmpty]
  refine ⟨?_, State.isEmpty_iff h, (State.isEmpty_iff h).symm.trans hpos⟩
  have hword : natWord (if s.isEmpty c = true then 1 else 0) = if s.contents c = [] then 1 else 0 := by
    simp only [hnil]
    split_ifs <;> rfl
  rw [exec_rbEmpty, hword]
  rfl

/-! ### Ring commands in terms of contents (R25) -/

/-- The `ch` field of the eight ring-buffer commands; none for the other three (R73). -/
def ringCh : Instr → Option (BitVec 4)
  | .rbPut ch _   => some ch
  | .rbGet ch     => some ch
  | .rbPeek ch    => some ch
  | .rbPeekn ch _ => some ch
  | .rbSize ch    => some ch
  | .rbEmpty ch   => some ch
  | .rbReset ch   => some ch
  | .rbToarray ch => some ch
  | .mfFilter _   => none
  | .scEncode _   => none
  | .ftSend _     => none

/-- A ring-buffer command with a `ch` of 9 to 15 is rejected (R195). -/
theorem exec_ringCh_bad {i : Instr} {ch : BitVec 4} (hi : ringCh i = some ch) (h : 9 ≤ ch.toNat) (s : State) :
    exec i s = .next (s.reject i.opcode.byte .eChannel) := by
  cases i <;> cases hi <;> exact State.withChannel_bad s _ h _

/-- A command other than SC.ENCODE and FT.SEND is a ring-buffer command or MF.FILTER (R73). -/
theorem ringCh_or_mfFilter {i : Instr} (he : i.opcode ≠ .scEncode) (hf : i.opcode ≠ .ftSend) :
    (∃ ch, ringCh i = some ch) ∨ ∃ ops, i = .mfFilter ops := by
  cases i <;> simp_all [ringCh, Instr.opcode]

/-- The data a ring-buffer command answers on a channel of contents `l`, and the contents it leaves there (R101 to
R108); the other three commands are listed for totality only, since no theorem here applies it to them. -/
def ringEffect (w : Nat) (l : List Cell) : Instr → List Word × List Cell
  | .rbPut _ v   => ([], listPut w l v)
  | .rbGet _     => ([sext32 (l.headD defaultT)], l.tail)
  | .rbPeek _    => ([sext32 (l.headD defaultT)], l)
  | .rbPeekn _ n => ([sext32 (l.getD n.toNat defaultT)], l)
  | .rbSize _    => ([natWord l.length], l)
  | .rbEmpty _   => ([natWord (if l.length = 0 then 1 else 0)], l)
  | .rbReset _   => ([], [])
  | .rbToarray _ => (l.map sext32, l)
  | .mfFilter _  => ([], l)
  | .scEncode _  => ([], l)
  | .ftSend _    => ([], l)

/-- The response carries a bounded number of data words: 1, or one for each element (R105 to R108). -/
theorem ringEffect_data_length (w : Nat) (l : List Cell) (i : Instr) : (ringEffect w l i).1.length ≤ max 1 l.length := by
  cases i <;> simp [ringEffect]

@[simp] theorem State.setRing_ring (s : State) (c : Channel) : s.setRing c (s.ring c) = s := by
  simp [State.setRing, State.ring]

theorem State.contents_setRing (s : State) (c : Channel) (r : Ring) :
    (s.setRing c r).contents = Function.update s.contents c (r.contents s.w) := by
  funext k
  rcases eq_or_ne k c with rfl | hk
  · simp [State.contents_eq]
  · simp [State.contents_eq, State.ring_setRing_of_ne, hk]

theorem State.setRing_inv {s : State} {c : Channel} {r : Ring} (h : ∀ k : Channel, (s.ring k).Inv s.w)
    (hr : r.Inv s.w) (k : Channel) : ((s.setRing c r).ring k).Inv s.w := by
  rcases eq_or_ne k c with rfl | hk
  · rwa [State.ring_setRing_self]
  · rw [State.ring_setRing_of_ne s c k r hk]
    exact h k

/-- A ring-buffer command on a legal channel answers OK with the data, and leaves a ring of the contents, that
`ringEffect` gives for the contents it finds (R25). -/
theorem exec_ringCommand {s : State} {c : Channel} (h : (s.ring c).Inv s.w) {i : Instr}
    (hi : ringCh i = some (chanField c)) :
    ∃ r : Ring, r.Inv s.w ∧ r.contents s.w = (ringEffect s.w (s.contents c) i).2 ∧
      exec i s = .next ((s.setRing c r).respond i.opcode.byte .ok (ringEffect s.w (s.contents c) i).1) := by
  have hempty : s.isEmpty c = true ↔ (s.ring c).size s.w = 0 := Ring.isEmpty_iff h
  have hhead : (s.contents c).headD defaultT = if s.isEmpty c = true then defaultT else (s.ring c).cellAt s.w 0 := by
    simp only [State.contents_eq, Ring.contents_headD, hempty]
  have hlen : (s.contents c).length = s.size c := Ring.contents_length _ _
  cases i with
  | rbPut ch v =>
    cases hi
    exact ⟨_, Ring.put_inv h v, Ring.contents_put h v, exec_rbPut c v s⟩
  | rbGet ch =>
    cases hi
    rw [exec_rbGet]
    simp only [ringEffect, hhead]
    split_ifs with he
    · have hnil : s.contents c = [] := (Ring.contents_eq_nil_iff _ _).2 (hempty.1 he)
      exact ⟨s.ring c, h, by rw [← State.contents_eq, hnil]; rfl, by rw [State.setRing_ring]; rfl⟩
    · exact ⟨_, Ring.drop_inv h, Ring.contents_drop h (mt hempty.2 he), rfl⟩
  | rbPeek ch =>
    cases hi
    exact ⟨s.ring c, h, rfl, by rw [exec_rbPeek, State.setRing_ring, ringEffect, hhead]; rfl⟩
  | rbPeekn ch n =>
    cases hi
    have hget : (s.contents c).getD n.toNat defaultT =
        if s.size c ≤ n.toNat then defaultT else (s.ring c).cellAt s.w n.toNat := by
      simp only [State.contents_eq, Ring.contents_getD, State.size_eq, ← Nat.not_lt, ite_not]
    exact ⟨s.ring c, h, rfl, by rw [exec_rbPeekn, State.setRing_ring, ringEffect, hget]; rfl⟩
  | rbSize ch =>
    cases hi
    exact ⟨s.ring c, h, rfl, by rw [exec_rbSize, State.setRing_ring, ringEffect, hlen]; rfl⟩
  | rbEmpty ch =>
    cases hi
    refine ⟨s.ring c, h, rfl, ?_⟩
    simp only [exec_rbEmpty, State.setRing_ring, ringEffect, hlen, State.isEmpty_iff h]
    rfl
  | rbReset ch =>
    cases hi
    exact ⟨_, Ring.clear_inv s.w_pos h, Ring.contents_clear _ _, exec_rbReset c s⟩
  | rbToarray ch =>
    cases hi
    exact ⟨s.ring c, h, rfl, by rw [exec_rbToarray, State.setRing_ring]; rfl⟩
  | mfFilter ops => cases hi
  | scEncode ops => cases hi
  | ftSend m => cases hi

/-- What a command makes of contents: the status and the data it answers, and the contents it leaves. -/
structure ContentsResult where
  status   : Status
  data     : List Word
  contents : Channel → List Cell

/-- The contents after step 1 of MF.FILTER on contents `l` (R131). -/
def pushContents (w : Nat) (l : Channel → List Cell) (v : Vector Word 9) : Channel → List Cell := fun k =>
  listPut w (l k) (sampleCell (v[k.val]'k.isLt))

/-- What a ring-buffer command or MF.FILTER makes of contents `l`, ill-formed commands included (R25, R101 to R108, R131,
R193, R195). -/
def contentsResult (cfg : Config) (l : Channel → List Cell) (i : Instr) : ContentsResult :=
  match ringCh i with
  | some ch =>
    match channelOf ch with
    | some c => ⟨.ok, (ringEffect cfg.w (l c) i).1, Function.update l c (ringEffect cfg.w (l c) i).2⟩
    | none => ⟨.eChannel, [], l⟩
  | none =>
    match nineWords i.words with
    | some v =>
      ⟨.ok, channels.map fun k => sext32 (median cfg.evenRank (pushContents cfg.w l v k)), pushContents cfg.w l v⟩
    | none => ⟨.eLength, [], l⟩

section
variable {cfg : Config} {l : Channel → List Cell} {i : Instr} {ch : BitVec 4} {ops : List Word}

theorem contentsResult_ring {c : Channel} (hi : ringCh i = some (chanField c)) :
    contentsResult cfg l i =
      ⟨.ok, (ringEffect cfg.w (l c) i).1, Function.update l c (ringEffect cfg.w (l c) i).2⟩ := by
  simp [contentsResult, hi]

theorem contentsResult_badChannel (hi : ringCh i = some ch) (h : 9 ≤ ch.toNat) :
    contentsResult cfg l i = ⟨.eChannel, [], l⟩ := by
  simp [contentsResult, hi, channelOf_eq_none h]

theorem contentsResult_mfFilter (h : ops.length = 9) :
    contentsResult cfg l (.mfFilter ops) =
      ⟨.ok, channels.map fun k => sext32 (median cfg.evenRank (pushContents cfg.w l ⟨ops.toArray, by simpa using h⟩ k)),
        pushContents cfg.w l ⟨ops.toArray, by simpa using h⟩⟩ := by
  simp [contentsResult, ringCh, Instr.words, nineWords_eq_some h]

theorem contentsResult_badLength (h : ops.length ≠ 9) : contentsResult cfg l (.mfFilter ops) = ⟨.eLength, [], l⟩ := by
  simp [contentsResult, ringCh, Instr.words, nineWords_eq_none h]

end

theorem contentsResult_congr {s t : State} (hcfg : s.cfg = t.cfg) (hcont : ∀ c : Channel, s.contents c = t.contents c)
    (i : Instr) : contentsResult s.cfg s.contents i = contentsResult t.cfg t.contents i := by
  rw [hcfg, funext hcont]

/-- `t` is `s` after what `i` makes of the contents of `s` alone: its response is sent, and rings of its contents, with
the ring invariants, are left; the generator and a work array of `W` cells are free, and nothing else changes. -/
structure ActsOnContents (i : Instr) (s t : State) : Prop where
  frame    : ∃ rings gen wa, t = { s with
    rings  := rings
    gen    := gen
    wa     := wa
    rspLog := s.rspLog ++ [responsePacket i.opcode.byte (contentsResult s.cfg s.contents i).status
      (contentsResult s.cfg s.contents i).data] }
  contents : t.contents = (contentsResult s.cfg s.contents i).contents
  ringInv  : ∀ c : Channel, (t.ring c).Inv s.w
  waLength : t.wa.length = s.w

/-- Ring-buffer commands and MF.FILTER act on contents alone (R25). -/
theorem exec_actsOnContents {i : Instr} {s : State} (he : i.opcode ≠ .scEncode) (hf : i.opcode ≠ .ftSend)
    (hs : s.Inv) : ∃ t, exec i s = .next t ∧ ActsOnContents i s t := by
  obtain ⟨hring, hwa, -⟩ := hs
  rcases ringCh_or_mfFilter he hf with ⟨ch, hi⟩ | ⟨ops, rfl⟩
  · rcases channel_cases ch with ⟨c, rfl⟩ | hbad
    · obtain ⟨r, hr, hc, hx⟩ := exec_ringCommand (hring c) hi
      refine ⟨_, hx, ?_, ?_, State.setRing_inv hring hr, hwa⟩ <;> rw [contentsResult_ring hi]
      · exact ⟨_, _, _, rfl⟩
      · exact (State.contents_setRing s c r).trans (by rw [hc]; rfl)
    · refine ⟨_, exec_ringCh_bad hi hbad s, ?_, ?_, hring, hwa⟩ <;> rw [contentsResult_badChannel hi hbad]
      · exact ⟨_, _, _, rfl⟩
      · rfl
  · by_cases h9 : ops.length = 9
    · have hpush := funext (contents_pushSample hring ⟨ops.toArray, by simpa using h9⟩)
      rw [exec_mfFilter h9, State.medians, hpush, List.map_map]
      refine ⟨_, rfl, ?_, ?_, pushSample_inv hring _, by simp [workCells]⟩ <;> rw [contentsResult_mfFilter h9]
      · exact ⟨_, _, _, rfl⟩
      · exact hpush
    · refine ⟨_, exec_mfFilter_bad h9 s, ?_, ?_, hring, hwa⟩ <;> rw [contentsResult_badLength h9]
      · exact ⟨_, _, _, rfl⟩
      · rfl

/-- Settles O28: both states act on the same contents. -/
theorem onlyContentsMatter : Obligations.OnlyContentsMatter := by
  intro s t i he hf hs ht hcfg hcont
  obtain ⟨s', hxs, ⟨_, _, _, rfl⟩, hcs, -⟩ := exec_actsOnContents he hf hs
  obtain ⟨t', hxt, ⟨_, _, _, rfl⟩, hct, -⟩ := exec_actsOnContents he hf ht
  have hres := contentsResult_congr hcfg hcont i
  refine ⟨_, _, _, hxs, hxt, rfl, ?_, fun c => ?_⟩
  · rw [hres]
  · rw [hcs, hct, hres]

/-! ### Responses and transactions (R83, R85, R86) -/

theorem Status.code_toNat_le (st : Status) : st.code.toNat ≤ 7 := by
  cases st <;> decide

/-- A response has its form when its data can be counted and a rejection has none (R83, R85). -/
theorem isResponse_responsePacket (op : Byte) {st : Status} {d : List Word} (hd : d.length ≤ 65535)
    (hst : st ≠ .ok → st ≠ .eTxFail → d = []) : IsResponse (responsePacket op st d) := by
  refine ⟨?_, ?_, ?_⟩
  · rw [statusField_response]
    exact Status.code_toNat_le st
  · rw [cntField_response, BitVec.toNat_ofNat, Nat.mod_eq_of_lt (by omega)]
    rfl
  · rw [statusField_response]
    exact fun h1 h2 => hst (mt (congrArg Status.code) h1) (mt (congrArg Status.code) h2)

theorem isResponse_reject (op : Byte) (st : Status) : IsResponse (responsePacket op st []) :=
  isResponse_responsePacket op (Nat.zero_le _) fun _ _ => rfl

theorem sendStatus_cases (failed : Bool) : sendStatus failed = .ok ∨ sendStatus failed = .eTxFail := by
  cases failed
  · exact .inl rfl
  · exact .inr rfl

/-- The response of a ring-buffer command or MF.FILTER on rings of at most `W` elements. -/
theorem isResponse_contentsResult (op : Byte) {cfg : Config} {l : Channel → List Cell} (hl : ∀ c, (l c).length ≤ cfg.w)
    {i : Instr} (he : i.opcode ≠ .scEncode) (hf : i.opcode ≠ .ftSend) :
    IsResponse (responsePacket op (contentsResult cfg l i).status (contentsResult cfg l i).data) := by
  rcases ringCh_or_mfFilter he hf with ⟨ch, hi⟩ | ⟨ops, rfl⟩
  · rcases channel_cases ch with ⟨c, rfl⟩ | hbad
    · rw [contentsResult_ring hi]
      have hd := ringEffect_data_length cfg.w (l c) i
      have hw := cfg.w_le
      have hc := hl c
      exact isResponse_responsePacket op (hd.trans (by omega)) fun h => absurd rfl h
    · rw [contentsResult_badChannel hi hbad]
      exact isResponse_reject op _
  · by_cases h9 : ops.length = 9
    · rw [contentsResult_mfFilter h9]
      exact isResponse_responsePacket op (by simp [channels]) fun h => absurd rfl h
    · rw [contentsResult_badLength h9]
      exact isResponse_reject op _

/-- Records that grow by responses and transactions of the right form keep it. -/
theorem recordsOk_append {s t : State} {ps : List Packet} {rs : List TxRecord} (h : s.RecordsOk)
    (hp : t.rspLog = s.rspLog ++ ps) (hps : ∀ p ∈ ps, IsResponse p) (hr : t.txLog = s.txLog ++ rs)
    (hrs : ∀ r ∈ rs, 1 ≤ r.bytes.length ∧ r.bytes.length ≤ 38) : t.RecordsOk := by
  rw [State.RecordsOk, hp, hr]
  exact ⟨List.forall_mem_append.2 ⟨h.1, hps⟩, List.forall_mem_append.2 ⟨h.2, hrs⟩⟩

theorem recordsOk_respond {s t : State} {p : Packet} (h : s.RecordsOk) (hp : t.rspLog = s.rspLog ++ [p])
    (hps : IsResponse p) (hr : t.txLog = s.txLog) : t.RecordsOk :=
  recordsOk_append (rs := []) h hp (by simpa using hps) (by simpa using hr) nofun

/-! ### The send sequencer keeps its ranges (R34, R171) -/

/-- The chunk of a running send has 1 to 38 bytes (R86, R172). -/
theorem chunk_length {s : State} (hr : s.ft.InRange) (ho : s.ft.off < 38) :
    1 ≤ (s.memRead s.ft.off s.ft.len).length ∧ (s.memRead s.ft.off s.ft.len).length ≤ 38 := by
  obtain ⟨-, hmax, -⟩ := hr
  have hpos := SendState.len_pos hmax ho
  have hrest := s.ft.len_le_rest
  rw [State.memRead_length s (by omega)]
  omega

/-- An answer keeps the sequencer's ranges, the answer that ends the send included. -/
theorem SendState.answered_inRange {f : SendState} {p : FailPolicy} (a : TxAnswer) (hr : f.InRange)
    (hrun : f.Running p) : (f.answered p a).InRange := by
  obtain ⟨-, hmax, hmax', -, -⟩ := hr
  obtain ⟨hoff, hmul, hok, -, -⟩ := hrun
  have hcnt : f.cnt ≤ f.cnt * f.max := Nat.le_mul_of_pos_right _ hmax
  have hrest := f.len_le_rest
  rw [SendState.answered_eq]
  refine ⟨?_, hmax, hmax', ?_, ?_⟩
  · dsimp only; split_ifs <;> omega
  · dsimp only; split_ifs <;> omega
  · dsimp only; omega

/-- An answer that does not end the send leaves it running: its chunk was full, and it failed exactly when its bytes are
missing from the accepted ones. -/
theorem SendState.answered_running {f : SendState} {p : FailPolicy} {a : TxAnswer} (hr : f.InRange)
    (hrun : f.Running p) (he : f.ends p a = false) : (f.answered p a).Running p := by
  obtain ⟨hgo, hlt⟩ := (SendState.not_ends_iff ..).1 he
  obtain ⟨hoff, hmul, hok, hfail, habort⟩ := hrun
  have hfull : f.len = f.max := SendState.len_eq_max hlt
  have hpos : 1 ≤ f.len := SendState.len_pos hr.2.1 hoff
  rw [SendState.answered_eq, if_neg (mt And.symm hgo)]
  cases a with
  | success =>
    refine ⟨hlt, ?_, ?_, ?_, ?_⟩
    · simp [hfull, hmul, Nat.succ_mul]
    · simpa using hok
    · simpa using hfail
    · simpa using habort
  | failure =>
    refine ⟨hlt, ?_, ?_, ?_, fun hp => absurd ⟨hp, rfl⟩ hgo⟩
    · simp [hfull, hmul, Nat.succ_mul]
    · simpa using Nat.le_add_right_of_le hok
    · simp; omega

theorem SendState.start_running (p : FailPolicy) (m : Nat) : (SendState.start m).Running p := by
  simp [SendState.Running, SendState.start]

/-! ### Every step keeps the invariant -/

/-- A chunk write of a send in flight with no chunk on offer keeps the block safe. -/
theorem chunkWrite_safe {s : State} (h : s.Safe) (ha : s.ft.active = true) (ho : s.txOffered = false) :
    s.chunkWrite.Safe := by
  obtain ⟨⟨hring, hwa, hrange, hsend, -⟩, hrec⟩ := h
  obtain ⟨hv, hrun⟩ := hsend ha
  have hchunk := chunk_length hrange hrun.1
  rcases s.chunkWrite_cases with ⟨_, hw⟩ | ⟨a, _, he, hw⟩ | ⟨a, _, he, hw⟩ <;> rw [hw]
  · exact ⟨⟨hring, hwa, hrange, hsend, fun _ => ha⟩, hrec⟩
  · refine ⟨⟨hring, hwa, SendState.answered_inRange a hrange hrun,
      fun _ => ⟨hv, SendState.answered_running hrange hrun he⟩, fun h => ?_⟩, ?_⟩
    · exact ha
    · exact recordsOk_append (ps := []) hrec (List.append_nil _).symm nofun rfl (List.forall_mem_singleton.2 hchunk)
  · refine ⟨⟨hring, hwa, SendState.answered_inRange a hrange hrun, nofun, fun h => ?_⟩, ?_⟩
    · exact absurd (ho.symm.trans h) (by decide)
    · refine recordsOk_append hrec rfl ?_ rfl (List.forall_mem_singleton.2 hchunk)
      refine List.forall_mem_singleton.2 (isResponse_responsePacket _ (by simp) fun h1 h2 =>
        absurd (sendStatus_cases _) (not_or.2 ⟨h1, h2⟩))

/-- A reset event keeps the block safe: the state is that of reset, and a chunk on offer is recorded (R222). -/
theorem resetEvent_safe {s : State} (h : s.Safe) : s.resetEvent.Safe := by
  obtain ⟨⟨-, -, hrange, hsend, -⟩, hrec⟩ := h
  refine ⟨(resetStateSafe s.cfg).1, ?_⟩
  refine recordsOk_append (ps := []) hrec (List.append_nil _).symm nofun (State.resetEvent_txLog s) ?_
  unfold State.abandoned State.offered
  cases ha : s.ft.active
  · simp
  · cases s.txOffered
    · simp
    · simpa using chunk_length hrange (hsend ha).2.1

/-- A send that starts on a waiting frame is in its ranges (R171). -/
theorem startSend_safe {s : State} {m : BitVec 16} (h : s.Safe) (hv : s.frmValid = true) (hm : m ≠ 0) :
    (s.startSend m.toNat).Safe := by
  obtain ⟨⟨hring, hwa, -⟩, hrec⟩ := h
  have hrange : (SendState.start m.toNat).InRange :=
    ⟨Nat.zero_le _, toNat_pos_of_ne_zero hm, Nat.le_of_lt_succ m.isLt, Nat.zero_le _, Nat.zero_le _⟩
  exact ⟨⟨hring, hwa, hrange, fun _ => ⟨hv, SendState.start_running _ _⟩, nofun⟩, hrec⟩

theorem opcode_scEncode {i : Instr} (h : i.opcode = .scEncode) : ∃ ops, i = .scEncode ops := by
  cases i <;> simp_all [Instr.opcode]

theorem opcode_ftSend {i : Instr} (h : i.opcode = .ftSend) : ∃ m, i = .ftSend m := by
  cases i <;> simp_all [Instr.opcode]

/-- A command an idle block executes keeps it safe. -/
theorem exec_safe {i : Instr} {s t : State} (hidle : s.ft.active = false) (h : s.Safe) (hx : exec i s = .next t) :
    t.Safe := by
  obtain ⟨hinv, hrec⟩ := h
  obtain ⟨hring, hwa, hrange, hsend, hoff⟩ := id hinv
  have ho : s.txOffered = false := by
    rw [← Bool.not_eq_true]
    exact fun h => absurd (hidle.symm.trans (hoff h)) (by decide)
  by_cases he : i.opcode = .scEncode
  · obtain ⟨ops, rfl⟩ := opcode_scEncode he
    by_cases h9 : ops.length = 9
    · cases (exec_scEncode h9 s).symm.trans hx
      refine ⟨⟨hring, hwa, hrange, fun h => ⟨rfl, (hsend h).2⟩, hoff⟩, recordsOk_respond hrec rfl ?_ rfl⟩
      exact isResponse_responsePacket _ (by simp [frameList_length]) fun h => absurd rfl h
    · cases (exec_scEncode_bad h9 s).symm.trans hx
      exact ⟨hinv, recordsOk_respond hrec rfl (isResponse_reject _ _) rfl⟩
  by_cases hf : i.opcode = .ftSend
  · obtain ⟨m, rfl⟩ := opcode_ftSend hf
    rcases exec_ftSend_cases hx with ⟨-, rfl⟩ | ⟨-, -, rfl⟩ | ⟨hm, hv, rfl⟩
    · exact ⟨hinv, recordsOk_respond hrec rfl (isResponse_reject _ _) rfl⟩
    · exact ⟨hinv, recordsOk_respond hrec rfl (isResponse_reject _ _) rfl⟩
    · exact chunkWrite_safe (startSend_safe ⟨hinv, hrec⟩ hv hm) rfl rfl
  · obtain ⟨t', hx', ⟨_, _, _, rfl⟩, -, hring', hwa'⟩ := exec_actsOnContents he hf hinv
    cases hx'.symm.trans hx
    refine ⟨⟨hring', hwa', hrange, hsend, hoff⟩, recordsOk_respond hrec rfl ?_ rfl⟩
    exact isResponse_contentsResult _ (fun c => (Ring.contents_length _ _).trans_le (Ring.size_le (hring c))) he hf

theorem exec_cfg {i : Instr} {s t : State} (hx : exec i s = .next t) : t.cfg = s.cfg := by
  obtain ⟨t', ht', ⟨hcfg, -⟩, -⟩ := exec_answer i s
  cases hx.symm.trans ht'
  exact hcfg

/-- Settles O57, by the cases of a step. -/
theorem stepKeepsSafe : Obligations.StepKeepsSafe := by
  intro s t hstep
  rcases step_cases s with ⟨-, h⟩ | ⟨-, ha, h⟩ | ⟨-, -, -, h⟩ | ⟨p, rest, -, ha, -, ⟨e, -, h⟩ | ⟨i, -, h⟩⟩ <;>
    rw [h] at hstep
  · cases hstep
    exact ⟨fun hs => resetEvent_safe hs, rfl⟩
  · cases hstep
    rcases sendStep_cases s.sampleTaken with ⟨-, hw⟩ | ⟨ho, hw⟩ <;> rw [hw]
    · exact ⟨id, rfl⟩
    · exact ⟨fun hs => chunkWrite_safe hs ha ho, State.chunkWrite_cfg _⟩
  · cases hstep
    exact ⟨id, rfl⟩
  · cases hstep
    exact ⟨fun ⟨hinv, hrec⟩ => ⟨hinv, recordsOk_respond hrec rfl (isResponse_reject _ _) rfl⟩, rfl⟩
  · exact ⟨fun hs => exec_safe (s := { s.sampleTaken with cmdPort := rest }) ha hs hstep, (exec_cfg hstep).trans rfl⟩

/-! ### Who writes the frame buffer and its flag (R29 to R31) -/

/-- A chunk write keeps the flag, or clears it and ends the send (R175). -/
theorem chunkWrite_frmValid (s : State) :
    s.chunkWrite.frmValid = s.frmValid ∨ (s.chunkWrite.frmValid = false ∧ s.chunkWrite.ft.active = false) := by
  rcases s.chunkWrite_cases with ⟨_, h⟩ | ⟨_, _, _, h⟩ | ⟨_, _, _, h⟩ <;> rw [h]
  · exact .inl rfl
  · exact .inl rfl
  · exact .inr ⟨rfl, rfl⟩

/-- The packet at the CMD port decodes to `i` (R61, R82). -/
def Takes (s : State) (i : Instr) : Prop := ∃ p rest, s.cmdPort = p :: rest ∧ decode p = .ok i

/-- A step without a reset leaves the frame and its flag, or ends a send and with it clears the flag, or runs an
SC.ENCODE (R30, R31). -/
theorem step_frame {s t : State} (hr : s.resetSampled = false) (hstep : step s = .next t) :
    (t.frm = s.frm ∧ t.frmValid = s.frmValid) ∨
    ((t.frm = s.frm ∧ t.frmValid = false ∧ t.ft.active = false) ∧
      (s.ft.active = true ∨ ∃ m, Takes s (.ftSend m))) ∨
    (t.frmValid = true ∧ s.ft.active = false ∧ ∃ ops, Takes s (.scEncode ops)) := by
  rcases step_cases s with ⟨hr', -⟩ | ⟨-, ha, h⟩ | ⟨-, -, -, h⟩ | ⟨p, rest, -, ha, hc, ⟨e, -, h⟩ | ⟨i, hd, h⟩⟩
  · exact absurd (hr.symm.trans hr') (by decide)
  all_goals rw [h] at hstep
  · cases hstep
    rcases sendStep_cases s.sampleTaken with ⟨-, hw⟩ | ⟨-, hw⟩ <;> rw [hw]
    · exact .inl ⟨rfl, rfl⟩
    · rcases chunkWrite_frmValid s.sampleTaken with hv | hend
      · exact .inl ⟨State.chunkWrite_frm _, hv⟩
      · exact .inr (.inl ⟨⟨State.chunkWrite_frm _, hend⟩, .inl ha⟩)
  · cases hstep
    exact .inl ⟨rfl, rfl⟩
  · cases hstep
    exact .inl ⟨rfl, rfl⟩
  · obtain ⟨t', ht', -, ⟨_, _, -, -, -, ⟨hv, hf⟩ | ⟨hv, ops, rfl⟩⟩ | ⟨m, rfl, -, -, rfl⟩⟩ :=
      exec_answer i { s.sampleTaken with cmdPort := rest }
    all_goals cases ht'.symm.trans hstep
    · exact .inl ⟨hf, hv⟩
    · exact .inr (.inr ⟨hv, ha, ops, p, rest, hc, hd⟩)
    · rcases chunkWrite_frmValid (({ s.sampleTaken with cmdPort := rest } : State).startSend m.toNat) with hv | hend
      · exact .inl ⟨State.chunkWrite_frm _, hv⟩
      · exact .inr (.inl ⟨⟨State.chunkWrite_frm _, hend⟩, .inr ⟨m, p, rest, hc, hd⟩⟩)

/-- Settles O58, by what a step can make of the frame and its flag. -/
theorem onlyEncodeWritesFrame : Obligations.OnlyEncodeWritesFrame := by
  intro s t hr hstep
  rcases step_frame hr hstep with ⟨hf, hv⟩ | ⟨⟨hf, hv, ha⟩, hsend⟩ | ⟨hv, ha, ops, p, rest, hc, hd⟩
  · simp [hf, hv]
  · refine ⟨by simp [hf, hv], fun _ => ⟨ha, hsend.imp_right ?_⟩⟩
    rintro ⟨m, p, rest, hc, hd⟩
    exact ⟨p, rest, m, hc, hd⟩
  · exact ⟨fun _ => ⟨ha, p, rest, ops, hc, hd⟩, fun h => absurd (hv.symm.trans h.2) (by decide)⟩

/-! ### Two states side by side -/

/-- A step of two states that agree in the reset samples, the CMD port and whether a send is in flight takes the same
case in both. -/
theorem step_cases_both {s t : State} (hr : s.rstPort = t.rstPort) (ha : s.ft.active = t.ft.active)
    (hc : s.cmdPort = t.cmdPort) :
    (step s = .next s.sampleTaken.resetEvent ∧ step t = .next t.sampleTaken.resetEvent) ∨
    (s.ft.active = true ∧ step s = .next s.sampleTaken.sendStep ∧ step t = .next t.sampleTaken.sendStep) ∨
    (step s = .next s.sampleTaken ∧ step t = .next t.sampleTaken) ∨
    ∃ p rest, step s = runPacket p { s.sampleTaken with cmdPort := rest } ∧
      step t = runPacket p { t.sampleTaken with cmdPort := rest } := by
  unfold step State.takeCommand State.resetSampled
  simp only [State.sampleTaken_cmdPort, ← hr, ← ha, ← hc]
  cases s.rstPort.headD false
  · cases s.ft.active
    · cases s.cmdPort with
      | nil => exact .inr (.inr (.inl ⟨rfl, rfl⟩))
      | cons p rest => exact .inr (.inr (.inr ⟨p, rest, rfl, rfl⟩))
    · exact .inr (.inl ⟨rfl, rfl, rfl⟩)
  · exact .inl ⟨rfl, rfl⟩

/-- A chunk write neither reads nor writes rings, generator and work array. -/
theorem chunkWrite_hidden (s : State) (rings : Vector Ring 9) (gen : Gen) (wa : List Cell) :
    ({ s with rings := rings, gen := gen, wa := wa } : State).chunkWrite =
      { s.chunkWrite with rings := rings, gen := gen, wa := wa } := by
  unfold State.chunkWrite State.nextAnswer
  dsimp only
  cases s.txPort.headD none with
  | none => rfl
  | some a =>
    dsimp only
    split_ifs <;> rfl

/-! ### The generator and the work array (R32, R33, R136) -/

/-- `u` is `t` with another generator and work array. -/
def SameButGen (t u : State) : Prop := u = { t with gen := u.gen, wa := u.wa }

theorem chunkWrite_sameButGen (s : State) (g : Gen) (wa : List Cell) :
    SameButGen s.chunkWrite ({ s with gen := g, wa := wa } : State).chunkWrite := by
  rw [chunkWrite_hidden s s.rings g wa, ← State.chunkWrite_rings s]
  rfl

theorem sendStep_sameButGen (s : State) (g : Gen) (wa : List Cell) :
    SameButGen s.sendStep ({ s with gen := g, wa := wa } : State).sendStep := by
  unfold State.sendStep
  dsimp only
  split_ifs
  · rfl
  · exact chunkWrite_sameButGen s g wa

/-- A meaning that runs on the named channel differs only in generator and work array if it does on every channel. -/
theorem withChannel_sameButGen {s s' : State} {op : Opcode} {ch : BitVec 4}
    {f f' : Channel → Host.Outcome State Fault Refusal} (hs : SameButGen s s')
    (hf : ∀ c, ∃ t u, f c = .next t ∧ f' c = .next u ∧ SameButGen t u) :
    ∃ t u, s.withChannel op ch f = .next t ∧ s'.withChannel op ch f' = .next u ∧ SameButGen t u := by
  unfold State.withChannel
  cases channelOf ch with
  | some c => exact hf c
  | none => exact ⟨_, _, rfl, rfl, by rw [hs]; rfl⟩

/-- No meaning reads the generator or the work array but to write them (R33, R136). -/
theorem exec_sameButGen (i : Instr) (s : State) (g : Gen) (wa : List Cell) :
    ∃ t u, exec i s = .next t ∧ exec i { s with gen := g, wa := wa } = .next u ∧ SameButGen t u := by
  cases i with
  | rbGet ch =>
    refine withChannel_sameButGen rfl fun c => ?_
    by_cases h : s.isEmpty c = true
    · exact ⟨_, _, if_pos h, if_pos h, rfl⟩
    · exact ⟨_, _, if_neg h, if_neg h, rfl⟩
  | mfFilter ops =>
    by_cases h : ops.length = 9
    · exact ⟨_, _, exec_mfFilter h _, exec_mfFilter h _, rfl⟩
    · exact ⟨_, _, exec_mfFilter_bad h _, exec_mfFilter_bad h _, rfl⟩
  | scEncode ops =>
    by_cases h : ops.length = 9
    · exact ⟨_, _, exec_scEncode h _, exec_scEncode h _, rfl⟩
    · exact ⟨_, _, exec_scEncode_bad h _, exec_scEncode_bad h _, rfl⟩
  | ftSend m =>
    simp only [exec_ftSend]
    split_ifs
    · exact ⟨_, _, rfl, rfl, rfl⟩
    · exact ⟨_, _, rfl, rfl, rfl⟩
    · exact ⟨_, _, rfl, rfl, chunkWrite_sameButGen (s.startSend m.toNat) g wa⟩
  | _ => exact withChannel_sameButGen rfl fun c => ⟨_, _, rfl, rfl, rfl⟩

/-- Settles O60, by the cases of a step. -/
theorem generatorIsHidden : Obligations.GeneratorIsHidden := by
  intro s g wa
  rcases step_cases_both (s := s) (t := { s with gen := g, wa := wa }) rfl rfl rfl with
    ⟨h, h'⟩ | ⟨-, h, h'⟩ | ⟨h, h'⟩ | ⟨p, rest, h, h'⟩
  · exact ⟨_, _, h, h', rfl⟩
  · exact ⟨_, _, h, h', sendStep_sameButGen s.sampleTaken g wa⟩
  · exact ⟨_, _, h, h', rfl⟩
  · rw [h, h']
    unfold runPacket
    cases decode p with
    | error e => exact ⟨_, _, rfl, rfl, rfl⟩
    | ok i => exact exec_sameButGen i { s.sampleTaken with cmdPort := rest } g wa

/-! ### What no observer of the ports can see (R25, R39, R240) -/

@[simp] theorem chunkWrite_contents (s : State) : s.chunkWrite.contents = s.contents := by
  funext k
  simp [State.contents, State.ring, State.w]

section
variable {s t : State}

/-- States that look alike with a readable frame and a send in flight differ in rings, generator and work array only. -/
theorem LooksLike.eq_of_active (h : s.LooksLike t) (hv : s.frmValid = true) (ha : s.ft.active = true) :
    t = { s with rings := t.rings, gen := t.gen, wa := t.wa } := by
  obtain ⟨hcfg, -, hvalid, hfrm, -, hft, ho, hcmd, htx, hrst, hrsp, htxl⟩ := h
  rw [hcfg, hfrm hv, hvalid, hft ha, ho, hcmd, htx, hrst, hrsp, htxl]

theorem chunkWrite_looksLike (h : s.LooksLike t) (hv : s.frmValid = true) (ha : s.ft.active = true) :
    s.chunkWrite.LooksLike t.chunkWrite := by
  have hcont : t.chunkWrite.contents = s.chunkWrite.contents := by
    simpa using (funext h.2.1).symm
  have ht : t.chunkWrite = { s.chunkWrite with rings := t.rings, gen := t.gen, wa := t.wa } := by
    rw [LooksLike.eq_of_active h hv ha]
    exact chunkWrite_hidden s t.rings t.gen t.wa
  refine ⟨?_, fun c => congrFun hcont.symm c, ?_⟩
  · rw [ht]
  · rw [ht]
    exact ⟨rfl, fun _ => rfl, rfl, fun _ => rfl, rfl, rfl, rfl, rfl, rfl, rfl⟩

theorem sampleTaken_looksLike (h : s.LooksLike t) : s.sampleTaken.LooksLike t.sampleTaken := by
  obtain ⟨hcfg, hcont, hvalid, hfrm, ha, hft, ho, hcmd, htx, hrst, hrsp, htxl⟩ := h
  exact ⟨hcfg, hcont, hvalid, hfrm, ha, hft, ho, hcmd, htx, congrArg List.tail hrst, hrsp, htxl⟩

theorem cmdPort_looksLike (h : s.LooksLike t) (rest : List Packet) :
    ({ s with cmdPort := rest } : State).LooksLike { t with cmdPort := rest } := by
  obtain ⟨hcfg, hcont, hvalid, hfrm, ha, hft, ho, -, htx, hrst, hrsp, htxl⟩ := h
  exact ⟨hcfg, hcont, hvalid, hfrm, ha, hft, ho, rfl, htx, hrst, hrsp, htxl⟩

theorem respond_looksLike (h : s.LooksLike t) (op : Byte) (st : Status) (d : List Word) :
    (s.respond op st d).LooksLike (t.respond op st d) := by
  obtain ⟨hcfg, hcont, hvalid, hfrm, ha, hft, ho, hcmd, htx, hrst, hrsp, htxl⟩ := h
  exact ⟨hcfg, hcont, hvalid, hfrm, ha, hft, ho, hcmd, htx, hrst, congrArg (· ++ _) hrsp, htxl⟩

theorem startSend_looksLike (h : s.LooksLike t) (m : Nat) : (s.startSend m).LooksLike (t.startSend m) := by
  obtain ⟨hcfg, hcont, hvalid, hfrm, -, -, -, hcmd, htx, hrst, hrsp, htxl⟩ := h
  exact ⟨hcfg, hcont, hvalid, hfrm, rfl, fun _ => rfl, rfl, hcmd, htx, hrst, hrsp, htxl⟩

theorem frameWritten_looksLike (h : s.LooksLike t) (b : Vector Byte 38) :
    ({ s.memWriteFrame b with frmValid := true } : State).LooksLike { t.memWriteFrame b with frmValid := true } := by
  obtain ⟨hcfg, hcont, -, -, ha, hft, ho, hcmd, htx, hrst, hrsp, htxl⟩ := h
  exact ⟨hcfg, hcont, rfl, fun _ => rfl, ha, hft, ho, hcmd, htx, hrst, hrsp, htxl⟩

/-- The chunk a reset abandons looks the same: it is read from a frame that waits (R34, R222). -/
theorem abandoned_eq (hs : s.Inv) (h : s.LooksLike t) : s.abandoned = t.abandoned := by
  obtain ⟨-, -, -, hsend, -⟩ := hs
  obtain ⟨-, -, -, hfrm, ha, hft, ho, -⟩ := h
  unfold State.abandoned State.offered State.memRead
  rw [← ha, ← ho]
  cases hact : s.ft.active
  · rfl
  · rw [hft hact, hfrm (hsend hact).1]

theorem resetEvent_looksLike (hs : s.Inv) (h : s.LooksLike t) : s.resetEvent.LooksLike t.resetEvent := by
  have habandoned := abandoned_eq hs h
  obtain ⟨hcfg, -, -, -, -, -, -, hcmd, htx, hrst, hrsp, htxl⟩ := h
  refine ⟨hcfg, fun c => ?_, rfl, fun _ => rfl, rfl, fun _ => rfl, rfl, hcmd, htx, hrst, hrsp, ?_⟩
  · simp [State.contents_eq]
  · rw [State.resetEvent_txLog, State.resetEvent_txLog, htxl, habandoned]

theorem sendStep_looksLike (hs : s.Inv) (h : s.LooksLike t) (ha : s.ft.active = true) :
    s.sendStep.LooksLike t.sendStep := by
  obtain ⟨-, -, -, hsend, -⟩ := hs
  obtain ⟨-, -, -, -, -, -, ho, -⟩ := id h
  unfold State.sendStep
  rw [← ho]
  split_ifs
  · exact h
  · exact chunkWrite_looksLike h (hsend ha).1 ha

/-- A command keeps states that look alike alike: ring-buffer commands and MF.FILTER act on contents alone, SC.ENCODE
on the configuration, FT.SEND on the waiting frame. -/
theorem exec_looksLike (hs : s.Inv) (ht : t.Inv) (h : s.LooksLike t) (i : Instr) :
    ∃ s' t', exec i s = .next s' ∧ exec i t = .next t' ∧ s'.LooksLike t' := by
  by_cases he : i.opcode = .scEncode
  · obtain ⟨ops, rfl⟩ := opcode_scEncode he
    by_cases h9 : ops.length = 9
    · refine ⟨_, _, exec_scEncode h9 s, exec_scEncode h9 t, ?_⟩
      rw [← h.1]
      exact respond_looksLike (frameWritten_looksLike h _) _ _ _
    · exact ⟨_, _, exec_scEncode_bad h9 s, exec_scEncode_bad h9 t, respond_looksLike h _ _ _⟩
  by_cases hf : i.opcode = .ftSend
  · obtain ⟨m, rfl⟩ := opcode_ftSend hf
    obtain ⟨-, -, hv, -⟩ := id h
    rw [exec_ftSend, exec_ftSend, ← hv]
    split_ifs with h0 hv0
    · exact ⟨_, _, rfl, rfl, respond_looksLike h _ _ _⟩
    · exact ⟨_, _, rfl, rfl, respond_looksLike h _ _ _⟩
    · exact ⟨_, _, rfl, rfl, chunkWrite_looksLike (startSend_looksLike h _) (by simpa using hv0) rfl⟩
  · obtain ⟨s', hxs, ⟨_, _, _, rfl⟩, hcs, -⟩ := exec_actsOnContents he hf hs
    obtain ⟨t', hxt, ⟨_, _, _, rfl⟩, hct, -⟩ := exec_actsOnContents he hf ht
    obtain ⟨hcfg, hcont, hvalid, hfrm, ha, hft, ho, hcmd, htx, hrst, hrsp, htxl⟩ := h
    have hres := contentsResult_congr hcfg hcont i
    refine ⟨_, _, hxs, hxt, hcfg, fun c => ?_, hvalid, hfrm, ha, hft, ho, hcmd, htx, hrst, ?_, htxl⟩
    · rw [hcs, hct, hres]
    · rw [hres, hrsp]

end

/-- Settles O59, by the cases of a step. -/
theorem hiddenStateIsUnobservable : Obligations.HiddenStateIsUnobservable := by
  intro s t hs ht h
  have h' := sampleTaken_looksLike h
  obtain ⟨-, -, -, -, ha, -, -, hcmd, -, hrst, -, -⟩ := id h
  rcases step_cases_both hrst ha hcmd with ⟨hxs, hxt⟩ | ⟨hact, hxs, hxt⟩ | ⟨hxs, hxt⟩ | ⟨p, rest, hxs, hxt⟩ <;>
    rw [hxs, hxt]
  · exact ⟨_, _, rfl, rfl, resetEvent_looksLike hs h'⟩
  · exact ⟨_, _, rfl, rfl, sendStep_looksLike hs h' hact⟩
  · exact ⟨_, _, rfl, rfl, h'⟩
  · unfold runPacket
    cases decode p with
    | error e => exact ⟨_, _, rfl, rfl, respond_looksLike (cmdPort_looksLike h' rest) _ _ _⟩
    | ok i =>
      exact exec_looksLike (s := { s.sampleTaken with cmdPort := rest }) (t := { t.sampleTaken with cmdPort := rest }) hs ht
        (cmdPort_looksLike h' rest) i

end Sys2Proof.Machine
end

section
/-! The obligations about a step of an idle block (R13, R61) and about the frame SC.ENCODE stores (R53, R54, R151): which
byte of the frame is which byte of which word. -/

namespace Sys2Proof.Machine

open Sys2Proof

/-! ### A step of an idle block -/

/-- Settles O9, by the cases of a step: the other three are of a reset, of a send in flight and of an empty CMD port. -/
theorem stepRunsDecoded : Obligations.StepRunsDecoded := by
  intro s p rest i hr ha hc hd
  rcases step_cases s with ⟨hr', -⟩ | ⟨-, ha', -⟩ | ⟨-, -, hc', -⟩ | ⟨p', rest', -, -, hc', hrun⟩
  · exact absurd (hr.symm.trans hr') (by decide)
  · exact absurd (ha.symm.trans ha') (by decide)
  · cases hc.symm.trans hc'
  · cases hc.symm.trans hc'
    rcases hrun with ⟨e, hd', -⟩ | ⟨i', hd', h⟩
    · cases hd.symm.trans hd'
    · cases hd.symm.trans hd'
      exact h

/-! ### The bytes of the frame -/

/-- In a concatenation of blocks of one length `n`, position `n * i + j` is position `j` of block `i`. -/
theorem getElem?_flatMap_of_length {α β : Type} {g : α → List β} {n : Nat} (hg : ∀ x, (g x).length = n) (l : List α)
    (i : Nat) {j : Nat} (hj : j < n) : (l.flatMap g)[n * i + j]? = l[i]?.bind fun x => (g x)[j]? := by
  induction l generalizing i with
  | nil => simp
  | cons x l ih =>
    rw [List.flatMap_cons]
    cases i with
    | zero => simp [List.getElem?_append_left (hj.trans_eq (hg x).symm)]
    | succ i =>
      have hi : n * (i + 1) + j = (g x).length + (n * i + j) := by rw [hg, Nat.mul_succ]; omega
      rw [hi, List.getElem?_append_right (Nat.le_add_right ..), Nat.add_sub_cancel_left, ih]
      rfl

theorem getElem?_channels (k : Channel) : channels[k.val]? = some k := by decide +revert

theorem wordBytes_length (x : Word) : (wordBytes x).length = 4 := rfl

theorem getElem?_wordBytes (x : Word) (j : Fin 4) : (wordBytes x)[j.val]? = some (wordByte x j.val) := by
  fin_cases j <;> rfl

theorem frameBody_length (f : Vector Word 9) : (frameBody f).length = 37 := rfl

/-- Byte `1 + 4k + j` of the frame's body is byte `j` of word `k` (R53). -/
theorem getElem?_frameBody (f : Vector Word 9) (k : Channel) (j : Fin 4) :
    (frameBody f)[1 + 4 * k.val + j.val]? = some (wordByte f[k.val] j.val) := by
  have hi : 1 + 4 * k.val + j.val = 4 * k.val + j.val + 1 := by omega
  rw [frameBody, hi, List.getElem?_cons_succ, getElem?_flatMap_of_length (fun _ => wordBytes_length _) _ _ j.isLt,
    getElem?_channels]
  exact getElem?_wordBytes _ j

theorem toList_frame (c : Checksum) (f : Vector Word 9) : (frame c f).toList = frameBody f ++ [cksum c (frameBody f)] := rfl

/-- The body's bytes are those of the frame (R53). -/
theorem getD_frame (c : Checksum) (f : Vector Word 9) (k : Channel) (j : Fin 4) :
    (frame c f).toList.getD (1 + 4 * k.val + j.val) 0 = wordByte f[k.val] j.val := by
  have hlt : 1 + 4 * k.val + j.val < (frameBody f).length := by rw [frameBody_length]; omega
  rw [toList_frame, List.getD_eq_getElem?_getD, List.getElem?_append_left hlt, getElem?_frameBody, Option.getD_some]

/-- The checksum is over everything before it (R53, R152). -/
theorem take_frame (c : Checksum) (f : Vector Word 9) : (frame c f).toList.take 37 = frameBody f := by
  rw [toList_frame, List.take_left' (frameBody_length f)]

/-- Settles O39: the frame that SC.ENCODE stores and returns, byte by byte. -/
theorem scEncodeResult : Obligations.ScEncodeResult := by
  intro s ops h9
  refine ⟨frame s.cfg.cksum ⟨ops.toArray, by simpa using h9⟩, exec_scEncode h9 s, rfl, fun k j => ?_, ?_⟩
  · rw [getD_frame, List.getD_eq_getElem _ _ (h9.symm ▸ k.isLt)]
    rfl
  · rw [take_frame]
    rfl

end Sys2Proof.Machine
end

section
/-! The obligations about the encodings (R71 to R73, R82): when a row of the opcode map gives each status or a command,
which packet a command has, that the assembler's packets are the encoder's, and that a step answers a packet once. -/

namespace Sys2Proof

/-! ### Columns of the opcode map (R72, R73) -/

theorem Opcode.matchValue_eq_shiftLeft (o : Opcode) : o.matchValue = o.byte.setWidth 32 <<< 24 := by
  cases o <;> rfl

theorem Opcode.operandWords_eq_zero_or_nine (o : Opcode) : o.operandWords = 0 ∨ o.operandWords = 9 := by
  cases o <;> decide

theorem Opcode.operandWords_eq_zero_iff (o : Opcode) :
    o.operandWords = 0 ↔ o.byte.toNat ∈ [1, 2, 3, 4, 5, 6, 7, 8, 0x30] := by
  cases o <;> decide

theorem Opcode.operandWords_eq_nine_iff (o : Opcode) : o.operandWords = 9 ↔ o.byte.toNat ∈ [0x10, 0x20] := by
  cases o <;> decide

theorem Opcode.usesChannel_iff (o : Opcode) :
    o.format.usesChannel = true ↔ o.byte.toNat ∈ [1, 2, 3, 4, 5, 6, 7, 8] := by
  cases o <;> decide

theorem Opcode.not_usesChannel_iff (o : Opcode) :
    o.format.usesChannel = false ↔ o.byte.toNat ∈ [0x10, 0x20, 0x30] := by
  cases o <;> decide

theorem Opcode.not_usesImm_iff (o : Opcode) :
    usesImm o.format = false ↔ o.byte.toNat ∈ [2, 3, 5, 6, 7, 8, 0x10, 0x20] := by
  cases o <;> decide

/-- A byte is the opcode of a row or names no command (R78). -/
theorem Opcode.byte_cases (b : Byte) :
    (∃ o : Opcode, b = o.byte) ∨ b.toNat ∉ [1, 2, 3, 4, 5, 6, 7, 8, 0x10, 0x20, 0x30] := by
  cases h : Opcode.ofByte? b with
  | none => exact .inr ((Opcode.ofByte?_eq_none_iff b).1 h)
  | some o => exact .inl ⟨o, (Opcode.ofByte?_eq_some h).symm⟩

/-! ### What a row makes of a packet (R82) -/

variable {o : Opcode} {p : Packet}

theorem decodeRow_ne_eOpcode : decodeRow o p ≠ .error .eOpcode := by
  unfold decodeRow
  split_ifs <;> simp

theorem decodeRow_eq_eLength_iff : decodeRow o p = .error .eLength ↔ p.body.length ≠ o.operandWords := by
  unfold decodeRow
  split_ifs with hlen <;> simp [hlen]

theorem length_of_ne_eLength (h : decodeRow o p ≠ .error .eLength) : p.body.length = o.operandWords :=
  not_not.1 (mt decodeRow_eq_eLength_iff.2 h)

theorem decodeRow_eq_eReserved_iff (hlen : p.body.length = o.operandWords) :
    decodeRow o p = .error .eReserved ↔ p.header &&& o.format.mask ≠ o.matchValue := by
  unfold decodeRow
  split_ifs <;> simp_all

theorem decodeRow_eq_eChannel (hlen : p.body.length = o.operandWords)
    (hmask : p.header &&& o.format.mask = o.matchValue)
    (hch : o.format.usesChannel = true ∧ 8 < (chField p.header).toNat) : decodeRow o p = .error .eChannel := by
  simp [decodeRow, hlen, hmask, hch]

theorem decodeRow_eq_ok_iff {i : Instr} :
    decodeRow o p = .ok i ↔ p.body.length = o.operandWords ∧ p.header &&& o.format.mask = o.matchValue ∧
      ¬(o.format.usesChannel = true ∧ 8 < (chField p.header).toNat) ∧
      o.instr (chField p.header) (immField p.header) p.body = i := by
  unfold decodeRow
  split_ifs with hlen hmask hch <;> simp_all

/-- The decoder goes by the row that has the packet's `op`. -/
theorem decode_eq_decodeRow (h : opField p.header = o.byte) : decode p = decodeRow o p := by
  simp [decode, h]

theorem decode_eq_eOpcode_iff :
    decode p = .error .eOpcode ↔ (opField p.header).toNat ∉ [1, 2, 3, 4, 5, 6, 7, 8, 0x10, 0x20, 0x30] := by
  rw [← Opcode.ofByte?_eq_none_iff, decode]
  cases Opcode.ofByte? (opField p.header) with
  | none => simp
  | some o => simpa using decodeRow_ne_eOpcode

/-- A packet not refused with `E_OPCODE` is decoded by some row. -/
theorem exists_row (h : decode p ≠ .error .eOpcode) : ∃ o : Opcode, opField p.header = o.byte :=
  (Opcode.byte_cases _).resolve_right (mt decode_eq_eOpcode_iff.2 h)

/-! ### The refusals (R192 to R195) -/

/-- Settles O4: the opcodes the lookup does not find are those that name no command. -/
theorem illegalOpcodeRejected : Obligations.IllegalOpcodeRejected := fun _ => decode_eq_eOpcode_iff

/-- Settles O5: a row refuses with `E_LENGTH` by its column `operand words`, which is 0 or 9. -/
theorem wrongLengthRejected : Obligations.WrongLengthRejected := by
  intro p
  rcases Opcode.byte_cases (opField p.header) with ⟨o, ho⟩ | hnone
  · rw [decode_eq_decodeRow ho, decodeRow_eq_eLength_iff, ho, ← o.operandWords_eq_zero_iff,
      ← o.operandWords_eq_nine_iff]
    have := o.operandWords_eq_zero_or_nine
    omega
  · rw [decode_eq_eOpcode_iff.2 hnone]
    simp only [List.mem_cons, List.not_mem_nil, or_false, not_or] at hnone
    simp [hnone]

/-- Settles O6: the mask check in terms of fields, each unused field by its list of opcodes. -/
theorem reservedBitsRejected : Obligations.ReservedBitsRejected := by
  intro p hop hlength
  obtain ⟨o, ho⟩ := exists_row hop
  rw [decode_eq_decodeRow ho] at hlength ⊢
  have hlen := length_of_ne_eLength hlength
  rw [decodeRow_eq_eReserved_iff hlen, Ne, and_mask_iff, ho, ← o.not_usesChannel_iff, ← o.not_usesImm_iff]
  tauto

/-- Settles O7: what is left after the mask check is the channel's range. -/
theorem channelRangeRejected : Obligations.ChannelRangeRejected := by
  intro p hop hlength hreserved
  obtain ⟨o, ho⟩ := exists_row hop
  rw [decode_eq_decodeRow ho] at hlength hreserved ⊢
  have hlen := length_of_ne_eLength hlength
  have hmask := not_not.1 (mt (decodeRow_eq_eReserved_iff hlen).2 hreserved)
  rw [ho, ← o.usesChannel_iff]
  exact ⟨decodeRow_eq_eChannel hlen hmask, fun hch => ⟨_, decodeRow_eq_ok_iff.2 ⟨hlen, hmask, hch, rfl⟩⟩⟩

/-! ### A command and the fields of its packet -/

/-- A command is its row with the fields its packet carries. -/
theorem Instr.instr_opcode (i : Instr) : i.opcode.instr i.chBits i.immBits i.words = i := by
  cases i <;> rfl

theorem Opcode.opcode_instr (o : Opcode) (ch : BitVec 4) (imm : BitVec 16) (ops : List Word) :
    (o.instr ch imm ops).opcode = o := by
  cases o <;> rfl

theorem Opcode.chBits_instr {ch : BitVec 4} (h : o.format.usesChannel = false → ch = 0) (imm : BitVec 16)
    (ops : List Word) : (o.instr ch imm ops).chBits = ch := by
  cases o <;> first | rfl | exact (h rfl).symm

theorem Opcode.immBits_instr {imm : BitVec 16} (h : usesImm o.format = false → imm = 0) (ch : BitVec 4)
    (ops : List Word) : (o.instr ch imm ops).immBits = imm := by
  cases o <;> first | rfl | exact (h rfl).symm

theorem Opcode.words_instr {ops : List Word} (h : ops.length = o.operandWords) (ch : BitVec 4)
    (imm : BitVec 16) : (o.instr ch imm ops).words = ops := by
  cases o <;> first | rfl | exact (List.length_eq_zero_iff.1 h).symm

/-- Well-formed means: the row's number of operand words, and a channel of at most 8 where the format has one (R77,
R80). -/
theorem Instr.wellFormed_iff (i : Instr) :
    i.wellFormed = true ↔ i.words.length = i.opcode.operandWords ∧
      ¬(i.opcode.format.usesChannel = true ∧ 8 < i.chBits.toNat) := by
  cases i <;>
    simp [wellFormed, channelOk, operandsOk, words, chBits, opcode, Opcode.operandWords, Opcode.format,
      Format.usesChannel]

/-- The packet of every well-formed command has the header bits and the word count of its row. -/
theorem packetShape : ∀ i : Instr, Laws.PacketShape.Statement i
  | .rbPut ch v => Laws.PacketShape.rbPut ch v
  | .rbGet ch => Laws.PacketShape.rbGet ch
  | .rbPeek ch => Laws.PacketShape.rbPeek ch
  | .rbPeekn ch n => Laws.PacketShape.rbPeekn ch n
  | .rbSize ch => Laws.PacketShape.rbSize ch
  | .rbEmpty ch => Laws.PacketShape.rbEmpty ch
  | .rbReset ch => Laws.PacketShape.rbReset ch
  | .rbToarray ch => Laws.PacketShape.rbToarray ch
  | .mfFilter ops => Laws.PacketShape.mfFilter ops
  | .scEncode ops => Laws.PacketShape.scEncode ops
  | .ftSend m => Laws.PacketShape.ftSend m

theorem opField_encode (i : Instr) : opField (encode i).header = i.opcode.byte := opField_mkHeader ..

theorem chField_encode (i : Instr) : chField (encode i).header = i.chBits := chField_mkHeader ..

theorem immField_encode (i : Instr) : immField (encode i).header = i.immBits := immField_mkHeader ..

/-! ### Decoding and encoding -/

/-- Settles O1: the packet passes the three checks of its row, which then reads the fields back. -/
theorem decodeEncodeAgree : Obligations.DecodeEncodeAgree := by
  intro i hi
  obtain ⟨hmask, hlen⟩ := packetShape i hi
  obtain ⟨-, hch⟩ := i.wellFormed_iff.1 hi
  rw [decode_eq_decodeRow (opField_encode i), decodeRow_eq_ok_iff, chField_encode, immField_encode]
  exact ⟨hlen, hmask, hch, i.instr_opcode⟩

/-- Settles O2: a row accepts a packet only with 0 in the fields its format does not use, so the command keeps all
of it. -/
theorem decodedPacketIsEncoding : Obligations.DecodedPacketIsEncoding := by
  intro p i h
  obtain ⟨o, ho⟩ := exists_row (p := p) (by simp [h])
  rw [decode_eq_decodeRow ho, decodeRow_eq_ok_iff] at h
  obtain ⟨hlen, hmask, hch, rfl⟩ := h
  obtain ⟨-, hrsv, hch0, himm0⟩ := (and_mask_iff o p.header).1 hmask
  have hwords := Opcode.words_instr hlen (chField p.header) (immField p.header)
  have hchBits := Opcode.chBits_instr hch0 (immField p.header) p.body
  have himmBits := Opcode.immBits_instr himm0 (chField p.header) p.body
  constructor
  · rw [Instr.wellFormed_iff, o.opcode_instr, hwords, hchBits]
    exact ⟨hlen, hch⟩
  · rw [encode, o.opcode_instr, hwords, hchBits, himmBits, ← ho, ← header_eq_mkHeader hrsv]

/-- Settles O3: each packet is the encoding of the command it stands for. -/
theorem decodeSamplePackets : Obligations.DecodeSamplePackets :=
  ⟨decodeEncodeAgree (.rbPut 0 0xFFEC) rfl, decodeEncodeAgree (.rbGet 3) rfl, decodeEncodeAgree (.rbPeekn 8 0) rfl,
    decodeEncodeAgree (.mfFilter [0x64, 0x7, 0xFFFB, 0, 0, 0, 0, 0, 0]) rfl,
    decodeEncodeAgree (.scEncode [1, 2, 3, 4, 5, 6, 7, 8, 9]) rfl, decodeEncodeAgree (.ftSend 20) rfl⟩

end Sys2Proof

namespace Sys2Proof.Machine

open Sys2Proof

/-! ### The assembler's packets (R87, R88) -/

/-- A row's match with a channel and 16 bits put in by `OR` is the header of these fields (R71, R87). -/
theorem matchValue_or (o : Opcode) (ch : BitVec 4) (imm : BitVec 16) :
    o.matchValue ||| ch.setWidth 32 <<< 20 ||| imm.setWidth 32 = mkHeader o.byte ch imm := by
  apply BitVec.eq_of_getLsbD_eq
  intro i hi
  rw [o.matchValue_eq_shiftLeft, mkHeader_bit]
  simp only [BitVec.getLsbD_or, BitVec.getLsbD_shiftLeft, BitVec.getLsbD_setWidth]
  split_ifs with h16 h20 h24
  · simp [hi, show i < 20 by omega, show i < 24 by omega]
  · simp [hi, h20, show i < 24 by omega, Nat.le_of_not_lt h16]
  · simp [hi, h20, h24, Nat.le_of_not_lt h16, show i - 20 < 32 by omega]
  · have hch : 4 ≤ i - 20 := by omega
    simp [hi, h24, BitVec.getLsbD_of_ge _ _ (Nat.le_of_not_lt h16), BitVec.getLsbD_of_ge _ _ hch,
      show i - 24 < 32 by omega]

theorem asmCh_eq (c : Channel) : asmCh c = (chanField c).setWidth 32 <<< 20 := by
  fin_cases c <;> rfl

theorem header_channel_imm (o : Opcode) (c : Channel) (v : Int) :
    o.matchValue ||| asmCh c ||| asmLow16 v = mkHeader o.byte (chanField c) (BitVec.ofInt 16 v) := by
  rw [asmCh_eq, asmLow16, matchValue_or]

theorem header_channel (o : Opcode) (c : Channel) : o.matchValue ||| asmCh c = mkHeader o.byte (chanField c) 0 := by
  rw [asmCh_eq, ← matchValue_or]
  simp

theorem header_imm (o : Opcode) (v : Int) : o.matchValue ||| asmLow16 v = mkHeader o.byte 0 (BitVec.ofInt 16 v) := by
  rw [asmLow16, ← matchValue_or]
  simp

/-- The header of a format without fields. -/
theorem header_match (o : Opcode) : o.matchValue = mkHeader o.byte 0 0 := by
  cases o <;> rfl

/-- `sc.encode` puts its words behind a header without fields (R87). -/
theorem asmEncode_eq_encode (ws : List Word) : asmEncode ws = encode (.scEncode ws) :=
  congrArg (Packet.mk · ws) (header_match .scEncode)

/-- `mf.filter` does so with the low 16 bits of its values (R87). -/
theorem asmFilter_eq_encode (vs : Vector Int 9) : asmFilter vs = encode (.mfFilter (vs.toList.map asmLow16)) :=
  congrArg (Packet.mk · (vs.toList.map asmLow16)) (header_match .mfFilter)

theorem channelOk_chanField (c : Channel) : channelOk (chanField c) = true := by
  fin_cases c <;> rfl

theorem operandsOk_of_length {ops : List Word} (h : ops.length = 9) : operandsOk ops = true := decide_eq_true h

theorem inImm_natCast {n : Nat} (h : n ≤ 65535) : inImm n = true := by
  simpa [inImm] using Int.ofNat_le.2 h

/-- A line whose packet is that of a well-formed command decodes to it. -/
theorem map_decode_assemble {l : AsmLine} {i : Instr} (h : assemble l = some (encode i)) (hi : i.wellFormed = true) :
    (assemble l).map decode = some (.ok i) := by
  rw [h, Option.map_some, decodeEncodeAgree i hi]

/-- A line that is a channel alone. -/
theorem map_decode_channelLine (o : Opcode) {l : AsmLine} {i : Instr} {c : Channel}
    (hl : assemble l = some (headerOnly (o.matchValue ||| asmCh c)))
    (he : encode i = headerOnly (mkHeader o.byte (chanField c) 0)) (hi : i.wellFormed = true) :
    (assemble l).map decode = some (.ok i) :=
  map_decode_assemble (by rw [hl, he, header_channel]) hi

/-- Settles O8: each form's packet is the encoding of its command. -/
theorem assembledLinesDecode : Obligations.AssembledLinesDecode := by
  refine ⟨fun c v hlo hhi => ?_, fun c n hn => ?_, fun c => ?_, fun vs => ?_, fun ws => ?_, fun m hm => ?_,
    fun ps => ?_, rfl, fun _ => rfl⟩
  · have hv : inCell v = true := by simp [inCell, hlo, hhi]
    refine map_decode_assemble ?_ (channelOk_chanField c)
    exact (if_pos hv).trans (congrArg (some <| headerOnly ·) (header_channel_imm .rbPut c v))
  · have hv := inImm_natCast hn
    rw [← BitVec.ofInt_natCast]
    refine map_decode_assemble ?_ (channelOk_chanField c)
    exact (if_pos hv).trans (congrArg (some <| headerOnly ·) (header_channel_imm .rbPeekn c n))
  · have hc := channelOk_chanField c
    exact ⟨map_decode_channelLine .rbGet rfl rfl hc, map_decode_channelLine .rbPeek rfl rfl hc,
      map_decode_channelLine .rbSize rfl rfl hc, map_decode_channelLine .rbEmpty rfl rfl hc,
      map_decode_channelLine .rbReset rfl rfl hc, map_decode_channelLine .rbToarray rfl rfl hc⟩
  · exact map_decode_assemble (congrArg some (asmFilter_eq_encode vs)) (operandsOk_of_length (by simp))
  · exact map_decode_assemble (congrArg some (asmEncode_eq_encode _)) (operandsOk_of_length (by simp))
  · have hv := inImm_natCast hm
    rw [← BitVec.ofInt_natCast]
    refine map_decode_assemble ?_ rfl
    exact (if_pos hv).trans (congrArg (some <| headerOnly ·) (header_imm .ftSend m))
  · exact map_decode_assemble (congrArg some (asmEncode_eq_encode _)) (operandsOk_of_length (by simp))

/-! ### One response per command (R83, R178) -/

/-- An idle block without a reset runs the next packet (R61). -/
theorem step_runPacket {s : State} {p : Packet} {rest : List Packet} (hr : s.resetSampled = false)
    (ha : s.ft.active = false) (hc : s.cmdPort = p :: rest) :
    step s = runPacket p { s with cmdPort := rest, rstPort := s.rstPort.tail } := by
  simp [step, hr, ha, hc, State.takeCommand, State.sampleTaken]

/-- A chunk write that leaves no send in flight is the one that ended it, and has responded (R175, R176). -/
theorem chunkWrite_responds {s : State} (ha : s.ft.active = true) (h : s.chunkWrite.ft.active = false) :
    ∃ st d, s.chunkWrite.rspLog = s.rspLog ++ [responsePacket Opcode.ftSend.byte st d] := by
  rcases s.chunkWrite_cases with ⟨_, hw⟩ | ⟨_, _, _, hw⟩ | ⟨_, _, _, hw⟩ <;> rw [hw] at h ⊢
  · exact absurd (ha.symm.trans h) (by decide)
  · exact absurd (ha.symm.trans h) (by decide)
  · exact ⟨_, _, rfl⟩

/-- A command run in an idle block responds once and leaves the block idle, or is an FT.SEND with its send in flight. -/
theorem exec_responds (i : Instr) {s : State} (ha : s.ft.active = false) :
    ∃ t, exec i s = .next t ∧ t.cmdPort = s.cmdPort ∧
      ((∃ st d, t.rspLog = s.rspLog ++ [responsePacket i.opcode.byte st d] ∧ t.ft.active = false) ∨
        (t.rspLog = s.rspLog ∧ t.ft.active = true ∧ i.opcode = .ftSend)) := by
  obtain ⟨t, ht, ⟨-, hcmd, -⟩, ⟨st, d, hrsp, hft, -⟩ | ⟨m, rfl, -, -, rfl⟩⟩ := exec_answer i s
  · exact ⟨t, ht, hcmd, .inl ⟨st, d, hrsp, hft ▸ ha⟩⟩
  · refine ⟨_, ht, hcmd, ?_⟩
    cases hact : (s.startSend m.toNat).chunkWrite.ft.active with
    | false =>
      obtain ⟨st, d, hrsp⟩ := chunkWrite_responds rfl hact
      exact .inl ⟨st, d, hrsp, rfl⟩
    | true => exact .inr ⟨(chunkWrite_active hact).2, rfl, rfl⟩

/-- The same of a packet: a refused one is rejected with its own `op`, an accepted one has the `op` of its command. -/
theorem runPacket_responds (p : Packet) {s : State} (ha : s.ft.active = false) :
    ∃ t, runPacket p s = .next t ∧ t.cmdPort = s.cmdPort ∧
      ((∃ r : Packet, t.rspLog = s.rspLog ++ [r] ∧ opField r.header = opField p.header ∧ t.ft.active = false) ∨
        (t.rspLog = s.rspLog ∧ t.ft.active = true ∧ opField p.header = 0x30)) := by
  unfold runPacket
  cases hd : decode p with
  | error e => exact ⟨_, rfl, rfl, .inl ⟨_, rfl, opField_response _ e [], ha⟩⟩
  | ok i =>
    have hop : opField p.header = i.opcode.byte := by
      rw [← (decodedPacketIsEncoding p i hd).2, opField_encode]
    obtain ⟨t, ht, hcmd, ⟨st, d, hrsp, hact⟩ | ⟨hrsp, hact, hsend⟩⟩ := exec_responds i ha
    · exact ⟨t, ht, hcmd, .inl ⟨_, hrsp, (opField_response ..).trans hop.symm, hact⟩⟩
    · exact ⟨t, ht, hcmd, .inr ⟨hrsp, hact, hop.trans (congrArg Opcode.byte hsend)⟩⟩

/-- Settles O13: the step runs the packet, which is answered once or starts a send. -/
theorem oneResponsePerCommand : Obligations.OneResponsePerCommand := by
  intro s p rest hr ha hc
  rw [step_runPacket hr ha hc]
  exact runPacket_responds p ha

end Sys2Proof.Machine
end

section
/-! The obligations about the eight ring-buffer commands (R101 to R110): what each answers and leaves, what all of them
leave unchanged, and what a sequence of puts or of gets makes of a ring. -/

namespace Sys2Proof.Machine

open Sys2Proof

variable {s : State} {c : Channel}

/-! ### Elements of the contents as cells (R25, R51) -/

theorem State.getD_contents (s : State) (c : Channel) (n : Nat) :
    (s.contents c).getD n 0 = if s.size c ≤ n then defaultT else (s.ring c).cellAt s.w n := by
  rw [State.contents_eq, Ring.contents_getD, ← State.size_eq]
  simp only [← Nat.not_lt, ite_not]
  rfl

/-- RB.GET and RB.PEEK ask for emptiness, the contents for size 0 (R27). -/
theorem State.headD_contents (h : (s.ring c).Inv s.w) :
    (s.contents c).headD 0 = if s.isEmpty c = true then defaultT else (s.ring c).cellAt s.w 0 := by
  rw [State.contents_eq, Ring.contents_headD, ← State.size_eq]
  simp only [State.isEmpty_iff h]
  rfl

theorem State.contents_length (s : State) (c : Channel) : (s.contents c).length = s.size c := Ring.contents_length ..

theorem State.contents_length_le (h : (s.ring c).Inv s.w) : (s.contents c).length ≤ s.w :=
  (s.contents_length c).trans_le (Ring.size_le h)

theorem State.isEmpty_iff_contents_eq_nil (h : (s.ring c).Inv s.w) : s.isEmpty c = true ↔ s.contents c = [] :=
  (State.isEmpty_iff h).trans (Ring.contents_eq_nil_iff _ _).symm

/-! ### One command -/

/-- Settles O17: the ring after the put is `Ring.put`, whose fields and contents are laws of the ring. -/
theorem rbPutResult : Obligations.RbPutResult := fun s c v h =>
  ⟨(s.ring c).put s.w v, exec_rbPut c v s, Ring.put_rd .., Ring.put_buf .., Ring.put_wr .., Ring.put_full ..,
    Ring.contents_put h v⟩

/-- Settles O18: the branch of the meaning is the case of the contents. -/
theorem rbGetResult : Obligations.RbGetResult := by
  intro s c h
  have hempty := State.isEmpty_iff_contents_eq_nil h
  refine ⟨fun hnil => (exec_rbGet c s).trans (if_pos (hempty.2 hnil)), fun v l hcons => ?_⟩
  have hne : s.contents c ≠ [] := hcons ▸ List.cons_ne_nil v l
  have hhead : v = (s.ring c).cellAt s.w 0 := by
    have := State.headD_contents h
    rwa [hcons, List.headD_cons, if_neg (mt hempty.1 hne)] at this
  have htail : ((s.ring c).drop s.w).contents s.w = l := by
    rw [Ring.contents_drop h (mt (Ring.contents_eq_nil_iff _ _).2 hne), ← State.contents_eq, hcons, List.tail_cons]
  refine ⟨(s.ring c).drop s.w, ?_, rfl, rfl, rfl, rfl, htail⟩
  rw [exec_rbGet, if_neg (mt hempty.1 hne), hhead]
  rfl

/-- Settles O19: what the meaning reads is the head of the contents. -/
theorem rbPeekResult : Obligations.RbPeekResult := by
  intro s c h
  rw [exec_rbPeek, ← State.headD_contents h]
  rfl

/-- Settles O20: what the meaning reads is element `n` of the contents. -/
theorem rbPeeknResult : Obligations.RbPeeknResult := by
  intro s c n
  rw [exec_rbPeekn, ← State.getD_contents]
  rfl

/-- Settles O23: the ring after the reset is `Ring.clear`. -/
theorem rbResetResult : Obligations.RbResetResult := fun s c =>
  ⟨(s.ring c).clear, exec_rbReset c s, rfl, rfl, rfl, rfl, Ring.contents_clear ..⟩

/-- Settles O24: the size is at most `W`, so the response's 16-bit count holds it. -/
theorem rbToarrayResult : Obligations.RbToarrayResult := by
  intro s c h
  have hlen : ((s.contents c).map sext32).length = s.size c := by rw [List.length_map, State.contents_length]
  have hsize : s.size c < 2 ^ 16 := Nat.lt_succ_of_le ((Ring.size_le h).trans s.w_le)
  refine ⟨(s.contents c).map sext32, exec_rbToarray c s, rfl, hlen, ?_, fun i _ => ?_⟩
  · rw [cntField_response, hlen, BitVec.toNat_ofNat, Nat.mod_eq_of_lt hsize]
  · have hzero : (0 : Word) = sext32 0 := rfl
    rw [hzero, List.getD_map]
    exact rbPeeknResult s c i

/-! ### What a command leaves unchanged -/

/-- A ring-buffer command on a legal channel sets at most the ring of its channel and responds, in every state. -/
theorem exec_ringCommand_shape (s : State) {i : Instr} (hi : ringCh i = some (chanField c)) :
    ∃ (r : Ring) (d : List Word), exec i s = .next ((s.setRing c r).respond i.opcode.byte .ok d) := by
  have hread {d : List Word} (hx : exec i s = .next (s.respond i.opcode.byte .ok d)) :
      ∃ (r : Ring) (d : List Word), exec i s = .next ((s.setRing c r).respond i.opcode.byte .ok d) :=
    ⟨s.ring c, d, by rw [State.setRing_ring, hx]⟩
  cases i with
  | rbPut ch v =>
    cases hi
    exact ⟨_, _, exec_rbPut c v s⟩
  | rbGet ch =>
    cases hi
    by_cases he : s.isEmpty c = true
    · exact hread ((exec_rbGet c s).trans (if_pos he))
    · exact ⟨_, _, (exec_rbGet c s).trans (if_neg he)⟩
  | rbPeek ch =>
    cases hi
    exact hread (exec_rbPeek c s)
  | rbPeekn ch n =>
    cases hi
    exact hread (exec_rbPeekn c n s)
  | rbSize ch =>
    cases hi
    exact hread (exec_rbSize c s)
  | rbEmpty ch =>
    cases hi
    exact hread (exec_rbEmpty c s)
  | rbReset ch =>
    cases hi
    exact ⟨_, _, exec_rbReset c s⟩
  | rbToarray ch =>
    cases hi
    exact hread (exec_rbToarray c s)
  | mfFilter ops => cases hi
  | scEncode ops => cases hi
  | ftSend m => cases hi

/-- Settles O27: setting one ring and responding changes nothing else. -/
theorem ringCommandFrame : Obligations.RingCommandFrame := by
  intro s t c v i hmem hx
  have hi : ringCh i = some (chanField c) := by
    simp only [List.mem_cons, List.not_mem_nil, or_false] at hmem
    rcases hmem with rfl | rfl | rfl | rfl | rfl | rfl | rfl | rfl <;> rfl
  obtain ⟨r, d, hshape⟩ := exec_ringCommand_shape s hi
  cases hx.symm.trans hshape
  exact ⟨fun k hk => State.ring_setRing_of_ne s c k r hk, rfl, rfl, rfl, rfl, rfl, rfl, rfl, rfl, rfl, rfl, rfl,
    _, rfl⟩

/-! ### Sequences of commands on one ring (R110) -/

theorem execAll_cons {s t : State} {i : Instr} (h : exec i s = .next t) (is : List Instr) :
    execAll (i :: is) s = execAll is t := by
  rw [execAll, h]

/-- A ring-buffer command as a step of a sequence: `ringEffect` gives the contents and the response, and the ring meets
the invariant again. -/
theorem exec_ringCommand_contents (h : (s.ring c).Inv s.w) {i : Instr} (hi : ringCh i = some (chanField c)) :
    ∃ t, exec i s = .next t ∧ t.w = s.w ∧ (t.ring c).Inv t.w ∧
      t.contents c = (ringEffect s.w (s.contents c) i).2 ∧
      t.rspLog = s.rspLog ++ [responsePacket i.opcode.byte .ok (ringEffect s.w (s.contents c) i).1] := by
  obtain ⟨r, hinv, hcont, hx⟩ := exec_ringCommand h hi
  refine ⟨_, hx, rfl, ?_, ?_, rfl⟩
  · rw [State.ring_respond, State.ring_setRing_self]
    exact hinv
  · rw [State.contents_eq, State.ring_respond, State.ring_setRing_self]
    exact hcont

/-- A put keeps the last `W` of the elements and the value (R101). -/
theorem listPut_eq_rtake {w : Nat} {l : List Cell} (h : l.length ≤ w) (v : Cell) :
    listPut w l v = (l ++ [v]).rtake w := by
  rw [listPut, List.rtake]
  split_ifs with hfull
  · rw [hfull, Nat.add_sub_cancel_left, List.drop_one]
  · have hle : (l ++ [v]).length ≤ w := by
      rw [List.length_append, List.length_singleton] at hfull ⊢
      omega
    rw [Nat.sub_eq_zero_of_le hle, List.drop_zero]

/-- An element not among the last `n` is not among them after others are appended either. -/
theorem rtake_rtake_append {α : Type} (n : Nat) (l m : List α) : (l.rtake n ++ m).rtake n = (l ++ m).rtake n := by
  have hle : l.length - n ≤ l.length := Nat.sub_le ..
  rw [List.rtake, List.rtake, List.rtake, ← List.drop_append_of_le_length hle, List.drop_drop, List.length_drop,
    List.length_append]
  congr 1
  omega

theorem length_rtake {α : Type} (n : Nat) (l : List α) : (l.rtake n).length = min l.length n := by
  rw [List.rtake, List.length_drop]
  omega

/-- Puts into a ring, empty or not, leave the last `W` of its elements and the values put. -/
theorem execAll_puts (vs : List Cell) (h : (s.ring c).Inv s.w) :
    ∃ t, execAll (vs.map fun v => .rbPut (chanField c) v) s = .next t ∧
      t.contents c = (s.contents c ++ vs).rtake s.w := by
  induction vs generalizing s with
  | nil =>
    refine ⟨s, rfl, ?_⟩
    rw [List.append_nil, List.rtake, Nat.sub_eq_zero_of_le (State.contents_length_le h), List.drop_zero]
  | cons v vs ih =>
    obtain ⟨t, hx, hw, hinv, hcont, -⟩ := exec_ringCommand_contents h (i := .rbPut (chanField c) v) rfl
    obtain ⟨u, hrun, hu⟩ := ih hinv
    refine ⟨u, (execAll_cons hx _).trans hrun, ?_⟩
    calc u.contents c = ((s.contents c ++ [v]).rtake s.w ++ vs).rtake s.w := by
          rw [hu, hw, hcont, ringEffect, listPut_eq_rtake (State.contents_length_le h)]
      _ = (s.contents c ++ v :: vs).rtake s.w := by rw [rtake_rtake_append, List.append_assoc, List.singleton_append]

/-- Settles O25, by the puts into a ring without elements. -/
theorem putsKeepLastWindow : Obligations.PutsKeepLastWindow := by
  intro s c vs h hnil
  obtain ⟨t, hrun, hcont⟩ := execAll_puts vs h
  rw [hnil, List.nil_append] at hcont
  refine ⟨t, hrun, hcont, ?_⟩
  rw [← State.contents_length, hcont, length_rtake]

/-- As many gets as there are elements answer them in order and leave none. -/
theorem execAll_gets {l : List Cell} (h : (s.ring c).Inv s.w) (hl : s.contents c = l) :
    ∃ t, execAll (List.replicate l.length (.rbGet (chanField c))) s = .next t ∧
      (t.ring c).Inv t.w ∧ t.contents c = [] ∧
      t.rspLog = s.rspLog ++ l.map fun v => responsePacket 0x02 .ok [v.signExtend 32] := by
  induction l generalizing s with
  | nil => exact ⟨s, rfl, h, hl, (List.append_nil _).symm⟩
  | cons v l ih =>
    obtain ⟨t, hx, -, hinv, hcont, hrsp⟩ := exec_ringCommand_contents h (i := .rbGet (chanField c)) rfl
    rw [hl] at hcont hrsp
    obtain ⟨u, hrun, huinv, hunil, hursp⟩ := ih hinv hcont
    refine ⟨u, (execAll_cons hx _).trans hrun, huinv, hunil, ?_⟩
    rw [hursp, hrsp, List.append_assoc]
    rfl

/-- Settles O26: the gets drain the ring, and a further get finds it empty. -/
theorem getsDrainRing : Obligations.GetsDrainRing := by
  intro s c h
  obtain ⟨t, hrun, hinv, hnil, hrsp⟩ := execAll_gets h rfl
  rw [State.contents_length] at hrun
  exact ⟨t, hrun, (State.isEmpty_iff_contents_eq_nil hinv).2 hnil, hrsp, (rbGetResult t c hinv).1 hnil⟩

end Sys2Proof.Machine
end

section
/-! The obligations about the median filter (R131 to R140): one pass of the selection algorithm, and from it what `Select`
finds and how many draws it makes; the median as an element of the window; and what MF.FILTER makes of the nine rings. -/

namespace Sys2Proof.Machine

open Sys2Proof

/-! ### The target rank (R132) -/

theorem rank_of_odd (e : EvenRank) {m : Nat} (h : m % 2 = 1) : rank e m = m / 2 := if_pos h

/-- The target rank is a position of the window. -/
theorem rank_lt (e : EvenRank) {m : Nat} (h : 1 ≤ m) : rank e m < m := by
  unfold rank
  split_ifs
  · omega
  · cases e
    · exact Nat.div_lt_self h (by decide)
    · show m / 2 - 1 < m
      omega

/-- Settles O29, by the parity of the window's size. -/
theorem rankValues : Obligations.RankValues := by
  refine ⟨fun e _ => rank_lt e, fun e _ => rank_of_odd e, fun m _ heven => ?_, fun e cfg => ?_⟩
  · have hodd : ¬m % 2 = 1 := by omega
    exact ⟨if_neg hodd, if_neg hodd⟩
  · have hodd := cfg.w_odd
    rw [rank_of_odd e hodd]
    omega

/-! ### One pass of the selection (R133) -/

/-- `a` taken apart about one of its elements: `l` the others not greater than the pivot, `u` those greater. -/
structure Splits (a l : List Cell) (pivot : Cell) (u : List Cell) : Prop where
  perm  : (l ++ pivot :: u).Perm a
  lower : ∀ x ∈ l, x.toInt ≤ pivot.toInt
  upper : ∀ x ∈ u, pivot.toInt < x.toInt

theorem Splits.length {a l u : List Cell} {pivot : Cell} (h : Splits a l pivot u) :
    l.length + u.length + 1 = a.length := by
  rw [← h.perm.length_eq, List.length_append, List.length_cons, Nat.add_assoc]

/-- The sorted list has the sorted lower part, the pivot and the sorted upper part in this order. -/
theorem Splits.sortSigned_eq {a l u : List Cell} {pivot : Cell} (h : Splits a l pivot u) :
    sortSigned a = sortSigned l ++ pivot :: sortSigned u := by
  have hlower : ∀ x ∈ sortSigned l, x.toInt ≤ pivot.toInt := fun x hx =>
    h.lower x ((sortSigned_perm l).mem_iff.1 hx)
  have hupper : ∀ x ∈ sortSigned u, pivot.toInt ≤ x.toInt := fun x hx =>
    (h.upper x ((sortSigned_perm u).mem_iff.1 hx)).le
  refine sorted_ext ?_ (sortSigned_sorted a) ?_
  · have hparts : (sortSigned l ++ pivot :: sortSigned u).Perm (l ++ pivot :: u) :=
      (sortSigned_perm l).append ((sortSigned_perm u).cons pivot)
    exact ((sortSigned_perm a).trans h.perm.symm).trans hparts.symm
  · refine List.pairwise_append.2 ⟨sortSigned_sorted l, List.pairwise_cons.2 ⟨hupper, sortSigned_sorted u⟩, ?_⟩
    exact fun x hx => List.forall_mem_cons.2 ⟨hlower x hx, fun y hy => (hlower x hx).trans (hupper y hy)⟩

/-- One pass: whatever the draw, the list is split about the pivot, and the rank chooses the part to go on with. -/
theorem exists_splits_select_succ (draw : Nat → Nat → Nat) (g : Gen) {a : List Cell} (ha : 1 ≤ a.length) :
    ∃ l pivot u, Splits a l pivot u ∧ ∀ fuel r, select draw (fuel + 1) a r g =
      if r < l.length then select draw fuel l r g.next
      else if r = l.length then (pivot, g.next)
      else select draw fuel u (r - l.length - 1) g.next := by
  refine ⟨_, _, _, ⟨?_, fun x hx => ?_, fun x hx => ?_⟩, fun fuel r => rfl⟩
  · exact List.perm_middle.trans (((List.filter_append_perm _ _).cons _).trans (eraseIdx_perm a (randIndex_lt draw g ha)))
  · exact (signedLe_iff ..).1 (List.mem_filter.1 hx).2
  · have hgreater := (List.mem_filter.1 hx).2
    rwa [Bool.not_eq_true', ← Bool.not_eq_true, signedLe_iff, not_le] at hgreater

/-- `Select` on `a` at rank `r` ends with `res`: the same under any fuel of at least `|a|`, with the element at position
`r` of the sorted list, and after 1 to `|a|` draws (R136, R137). -/
structure SelectEnds (draw : Nat → Nat → Nat) (a : List Cell) (r : Nat) (g : Gen) (res : Cell × Gen) : Prop where
  ends     : ∀ fuel, a.length ≤ fuel → select draw fuel a r g = res
  value    : res.1 = (sortSigned a).getD r 0
  draws    : g.drawCtr + 1 ≤ res.2.drawCtr
  draws_le : res.2.drawCtr ≤ g.drawCtr + a.length

section
variable {draw : Nat → Nat → Nat} {a a' l u : List Cell} {pivot : Cell} {r r' : Nat} {g : Gen} {res : Cell × Gen}

/-- A pass that goes on with a shorter list `a'` at rank `r'` ends as the selection there does, one draw later. -/
theorem SelectEnds.of_next (h : SelectEnds draw a' r' g.next res)
    (hpass : ∀ fuel, select draw (fuel + 1) a r g = select draw fuel a' r' g.next) (hlen : a'.length < a.length)
    (hvalue : (sortSigned a').getD r' 0 = (sortSigned a).getD r 0) : SelectEnds draw a r g res := by
  obtain ⟨hends, hval, hdraws, hdraws'⟩ := h
  rw [Gen.next_drawCtr] at hdraws hdraws'
  refine ⟨fun fuel hfuel => ?_, hval.trans hvalue, by omega, by omega⟩
  obtain ⟨n, rfl⟩ := Nat.exists_eq_add_one_of_ne_zero (show fuel ≠ 0 by omega)
  exact (hpass n).trans (hends n (by omega))

/-- A pass whose pivot has the target rank ends with the pivot. -/
theorem SelectEnds.of_pivot (h : Splits a l pivot u)
    (hpass : ∀ fuel, select draw (fuel + 1) a l.length g = (pivot, g.next)) :
    SelectEnds draw a l.length g (pivot, g.next) := by
  have hlen := h.length
  refine ⟨fun fuel hfuel => ?_, ?_, le_rfl, ?_⟩
  · obtain ⟨n, rfl⟩ := Nat.exists_eq_add_one_of_ne_zero (show fuel ≠ 0 by omega)
    exact hpass n
  · rw [h.sortSigned_eq, List.getD_append_right _ _ _ _ (sortSigned_length l).le, sortSigned_length, Nat.sub_self]
    rfl
  · show g.drawCtr + 1 ≤ g.drawCtr + a.length
    omega

end

/-- `Select` ends, by induction on the length: each pass removes at least the pivot. -/
theorem exists_selectEnds (draw : Nat → Nat → Nat) {a : List Cell} {r : Nat} (hr : r < a.length) (g : Gen) :
    ∃ res, SelectEnds draw a r g res := by
  induction hn : a.length using Nat.strong_induction_on generalizing a r g with
  | h n ih =>
    obtain ⟨l, pivot, u, hsplit, hpass⟩ := exists_splits_select_succ draw g (Nat.one_le_of_lt hr)
    have hlen := hsplit.length
    rcases Nat.lt_trichotomy r l.length with hlt | rfl | hgt
    · obtain ⟨res, hres⟩ := ih _ (by omega) hlt g.next rfl
      refine ⟨res, hres.of_next (fun fuel => by rw [hpass, if_pos hlt]) (by omega) ?_⟩
      rw [hsplit.sortSigned_eq, List.getD_append _ _ _ _ (hlt.trans_eq (sortSigned_length l).symm)]
    · exact ⟨_, SelectEnds.of_pivot hsplit fun fuel => by simp [hpass]⟩
    · obtain ⟨res, hres⟩ := ih u.length (by omega) (show r - l.length - 1 < u.length by omega) g.next rfl
      refine ⟨res, hres.of_next (fun fuel => ?_) (by omega) ?_⟩
      · rw [hpass, if_neg hgt.not_gt, if_neg hgt.ne']
      · obtain ⟨k, rfl⟩ := Nat.exists_eq_add_of_lt hgt
        rw [hsplit.sortSigned_eq, List.getD_append_right _ _ _ _ (by rw [sortSigned_length]; omega), sortSigned_length,
          show l.length + k + 1 - l.length = k + 1 by omega, Nat.add_sub_cancel, List.getD_cons_succ]

/-- `Select` finds the element at the target rank, whatever the draws (R136). -/
theorem select_value (draw : Nat → Nat → Nat) {a : List Cell} {r : Nat} (hr : r < a.length) (g : Gen) :
    (select draw a.length a r g).1 = (sortSigned a).getD r 0 := by
  obtain ⟨res, h⟩ := exists_selectEnds draw hr g
  rw [h.ends _ le_rfl, h.value]

/-- Any sorted list of the same elements is the sorted list. -/
theorem eq_sortSigned {a sorted : List Cell} (hperm : sorted.Perm a)
    (hsorted : sorted.Pairwise fun x y => x.toInt ≤ y.toInt) : sorted = sortSigned a :=
  sorted_ext (hperm.trans (sortSigned_perm a).symm) hsorted (sortSigned_sorted a)

/-- Settles O30, since every pass keeps the target element at its rank. -/
theorem selectIgnoresDraws : Obligations.SelectIgnoresDraws := by
  intro draw g a sorted r hr hperm hsorted
  rw [eq_sortSigned hperm hsorted, select_value draw hr g]

/-- Settles O31, since every pass makes one draw and goes on with a shorter list. -/
theorem selectPassBound : Obligations.SelectPassBound := by
  intro draw g a r extra hr
  obtain ⟨res, h⟩ := exists_selectEnds draw hr g
  rw [h.ends _ le_rfl, h.ends _ (Nat.le_add_right ..)]
  exact ⟨h.draws, h.draws_le, rfl⟩

/-! ### The median of a window (R131, R136) -/

/-- The median is what `Select` finds, under any draws. -/
theorem median_eq_select (e : EvenRank) {window : List Cell} (h : 1 ≤ window.length) (draw : Nat → Nat → Nat)
    (g : Gen) : median e window = (select draw window.length window (rank e window.length) g).1 :=
  (select_value draw (rank_lt e h) g).symm

theorem getD_sortSigned_mem {l : List Cell} {n : Nat} (h : n < l.length) (d : Cell) : (sortSigned l).getD n d ∈ l := by
  have hlt : n < (sortSigned l).length := h.trans_eq (sortSigned_length l).symm
  rw [List.getD_eq_getElem _ _ hlt]
  exact (sortSigned_perm l).mem_iff.1 (List.getElem_mem hlt)

theorem median_mem (e : EvenRank) {window : List Cell} (h : 1 ≤ window.length) : median e window ∈ window :=
  getD_sortSigned_mem (rank_lt e h) defaultT

/-- An odd window above size 1, split about its first or its last element in signed order, has its median among the
others: position `m div 2` is neither the first nor the last. -/
theorem median_mem_of_splits (e : EvenRank) {window l u : List Cell} {x : Cell} (h : Splits window l x u)
    (hodd : window.length % 2 = 1) (hlen : 1 < window.length) (hend : l = [] ∨ u = []) :
    median e window ∈ l ++ u := by
  have hsum := h.length
  rw [median, h.sortSigned_eq, rank_of_odd e hodd]
  rcases hend with rfl | rfl
  · rw [List.length_nil] at hsum
    obtain ⟨k, hk⟩ := Nat.exists_eq_add_one_of_ne_zero (show window.length / 2 ≠ 0 by omega)
    rw [hk, List.nil_append u]
    exact getD_sortSigned_mem (by omega) defaultT
  · rw [List.length_nil] at hsum
    have hlt : window.length / 2 < l.length := by omega
    rw [List.getD_append _ _ _ _ (hlt.trans_eq (sortSigned_length l).symm), List.append_nil]
    exact getD_sortSigned_mem hlt defaultT

/-- Settles O38: the window is split about its outlier, with all others on one side. -/
theorem outlierIsNeverMedian : Obligations.OutlierIsNeverMedian := by
  intro e before after x hodd hlen houtlier heq
  have hperm : (x :: (before ++ after)).Perm (before ++ x :: after) := List.perm_middle.symm
  rcases houtlier with hmax | hmin
  · have hsplit : Splits (before ++ x :: after) (before ++ after) x [] :=
      ⟨(List.perm_append_singleton ..).trans hperm, fun y hy => (hmax y hy).le, nofun⟩
    have hmem := median_mem_of_splits e hsplit hodd hlen (.inr rfl)
    rw [List.append_nil, heq] at hmem
    exact lt_irrefl _ (hmax x hmem)
  · have hsplit : Splits (before ++ x :: after) [] x (before ++ after) := ⟨hperm, nofun, hmin⟩
    have hmem := median_mem_of_splits e hsplit hodd hlen (.inl rfl)
    rw [heq] at hmem
    exact lt_irrefl _ (hmin x hmem)

/-! ### MF.FILTER on the nine rings (R131) -/

/-- `t` is `s` after MF.FILTER with nine operand words `ops`, but for generator and work array: every ring has the put of
its operand's low half, and the response has the medians of the new contents. -/
structure Filters (s : State) (ops : List Word) (t : State) : Prop where
  cfg    : t.cfg = s.cfg
  ring   : ∀ k : Channel, t.ring k = (s.ring k).put s.w (sampleCell (ops.getD k.val 0))
  rspLog : t.rspLog = s.rspLog ++ [responsePacket 0x10 .ok
    (channels.map fun k => sext32 (median s.cfg.evenRank (t.contents k)))]

theorem exec_mfFilter_filters {ops : List Word} (h9 : ops.length = 9) (s : State) :
    ∃ t, exec (.mfFilter ops) s = .next t ∧ Filters s ops t := by
  refine ⟨_, exec_mfFilter h9 s, rfl, fun k => ?_, ?_⟩
  · rw [State.ring_respond, State.ring_afterSelection, State.ring_pushSample, operand_getD h9]
  · rw [State.respond_rspLog, State.medians, List.map_map]
    rfl

section
variable {s t : State} {ops : List Word} {k : Channel}

theorem Filters.w (h : Filters s ops t) : t.w = s.w := congrArg Config.w h.cfg

theorem Filters.inv (h : Filters s ops t) (hinv : (s.ring k).Inv s.w) : (t.ring k).Inv t.w := by
  rw [h.w, h.ring]
  exact Ring.put_inv hinv _

theorem Filters.contents (h : Filters s ops t) (hinv : (s.ring k).Inv s.w) :
    t.contents k = listPut s.w (s.contents k) (sampleCell (ops.getD k.val 0)) := by
  rw [State.contents_eq, h.w, h.ring, Ring.contents_put hinv, ← State.contents_eq]

/-- No ring is empty after MF.FILTER (R131). -/
theorem Filters.length_pos (h : Filters s ops t) (hinv : (s.ring k).Inv s.w) : 1 ≤ (t.contents k).length := by
  have hw := s.w_pos
  rw [State.contents_length, State.size_eq, h.w, h.ring, Ring.size_put hinv]
  split_ifs <;> omega

end

theorem getD_map_channels {α : Type} (f : Channel → α) (k : Channel) (d : α) : (channels.map f).getD k.val d = f k := by
  rw [List.getD_eq_getElem?_getD, List.getElem?_map, getElem?_channels]
  rfl

/-- Settles O32: every ring is a put, and the data are the medians of the contents it leaves. -/
theorem mfFilterResult : Obligations.MfFilterResult := by
  intro s ops h9 hinv
  obtain ⟨t, hx, ht⟩ := exec_mfFilter_filters h9 s
  refine ⟨t, _, hx, ht.rspLog, by rw [List.length_map]; rfl, fun k => ?_⟩
  refine ⟨?_, ?_, ?_, ?_, ht.contents (hinv k), fun sorted hperm hsorted => ?_⟩
  · rw [ht.ring, Ring.put_rd]
  · rw [ht.ring, Ring.put_buf]
    rfl
  · rw [ht.ring, Ring.put_wr]
  · rw [ht.ring, Ring.put_full]
  · rw [getD_map_channels, median, State.contents_length, ← eq_sortSigned hperm hsorted]
    rfl

/-- Settles O33: each median is what the selection finds, since no ring is empty after the put. -/
theorem mfFilterReturnsSelect : Obligations.MfFilterReturnsSelect := by
  intro s ops draw g h9 hinv
  obtain ⟨t, hx, ht⟩ := exec_mfFilter_filters h9 s
  refine ⟨t, hx, ?_⟩
  have hlane : ∀ k : Channel, median s.cfg.evenRank (t.contents k) =
      (select draw (t.contents k).length (t.contents k) (rank s.cfg.evenRank (t.size k)) g).1 := fun k => by
    rw [median_eq_select _ (ht.length_pos (hinv k)) draw g, State.contents_length]
  simp only [ht.rspLog, hlane, sext32]

/-- Settles O35, by the answer every command gives; MF.FILTER is neither SC.ENCODE nor FT.SEND. -/
theorem mfFilterFrame : Obligations.MfFilterFrame := by
  intro s t ops hx
  obtain ⟨t', hx', ⟨hcfg, hcmd, hrst⟩, hanswer⟩ := exec_answer (.mfFilter ops) s
  cases hx.symm.trans hx'
  rcases hanswer with ⟨st, d, hrsp, hft, ⟨ho, htx, htxl⟩, ⟨hv, hf⟩ | ⟨-, _, hi⟩⟩ | ⟨_, hi, -⟩
  · refine ⟨hf, hv, hft, hcfg, hcmd, ho, htx, hrst, htxl, ⟨_, hrsp⟩, fun h9 => ?_⟩
    cases hx.symm.trans (exec_mfFilter_bad h9 s)
    rfl
  · cases hi
  · cases hi

/-! ### Sequences of MF.FILTER, and constant input (R139, R140) -/

/-- MF.FILTERs leave in every ring the last `W` of its elements and the channel's values. -/
theorem execAll_filters (samples : List (Vector Word 9)) {s : State} (hinv : ∀ c : Channel, (s.ring c).Inv s.w) :
    ∃ t, execAll (samples.map fun x => .mfFilter x.toList) s = .next t ∧
      ∀ c : Channel, t.contents c = (s.contents c ++ samples.map fun x => sampleCell x[c.val]).rtake s.w := by
  induction samples generalizing s with
  | nil =>
    refine ⟨s, rfl, fun c => ?_⟩
    rw [List.map_nil, List.append_nil, List.rtake, Nat.sub_eq_zero_of_le (State.contents_length_le (hinv c)),
      List.drop_zero]
  | cons x samples ih =>
    obtain ⟨t, hx, ht⟩ := exec_mfFilter_filters x.length_toList s
    obtain ⟨u, hrun, hu⟩ := ih fun c => ht.inv (hinv c)
    refine ⟨u, (execAll_cons hx _).trans hrun, fun c => ?_⟩
    have hoperand : x.toList.getD c.val 0 = x[c.val] := by simp [List.getD_eq_getElem?_getD]
    rw [hu, ht.w, ht.contents (hinv c), hoperand, listPut_eq_rtake (State.contents_length_le (hinv c)),
      rtake_rtake_append, List.append_assoc, List.map_cons, List.singleton_append]

/-- Settles O36, by the MF.FILTERs on rings without elements. -/
theorem filterWindowIsLastSamples : Obligations.FilterWindowIsLastSamples := by
  intro s samples hinv hnil
  obtain ⟨t, hrun, hcont⟩ := execAll_filters samples hinv
  refine ⟨t, hrun, fun c => ?_⟩
  have hc := hcont c
  rw [hnil c, List.nil_append] at hc
  constructor
  · rw [hc, List.rtake, List.length_map]
    rfl
  · rw [← State.contents_length, hc, length_rtake, List.length_map]

/-- A put adds no element but its value (R101). -/
theorem mem_listPut {w : Nat} {l : List Cell} {v x : Cell} (h : x ∈ listPut w l v) : x ∈ l ∨ x = v := by
  have hmem : x ∈ l ++ [v] := by
    unfold listPut at h
    split_ifs at h
    · exact List.mem_of_mem_tail h
    · exact h
  simpa using hmem

/-- Settles O37: the puts add nothing but `v`, and a median is an element of its window. -/
theorem constantInputPassesThrough : Obligations.ConstantInputPassesThrough := by
  intro s v ops h9 hops hinv hcont
  obtain ⟨t, hx, ht⟩ := exec_mfFilter_filters h9 s
  have hoperand (k : Channel) : sampleCell (ops.getD k.val 0) = v := by
    rw [List.getD_eq_getElem _ _ (k.isLt.trans_eq h9.symm)]
    exact hops _ (List.getElem_mem _)
  have hall (k : Channel) : ∀ x ∈ t.contents k, x = v := fun x hmem => by
    rw [ht.contents (hinv k), hoperand] at hmem
    exact (mem_listPut hmem).elim (hcont k x) id
  have hmedian (k : Channel) : median s.cfg.evenRank (t.contents k) = v :=
    hall k _ (median_mem _ (ht.length_pos (hinv k)))
  refine ⟨t, hx, ?_, hall⟩
  simp only [ht.rspLog, hmedian]
  rfl

end Sys2Proof.Machine
end

section
/-! The obligations about the sample codec (42_sample_codec.md): what SC.ENCODE leaves unchanged, the two checksums, and the
receiver's Decode. The CRC register after a byte is a linear, injective function of the XOR of register and byte. -/

namespace Sys2Proof.Machine

open Sys2Proof

/-! ### SC.ENCODE (R151) -/

/-- Settles O40, by the two meanings of SC.ENCODE: the frame is stored, or the command is rejected. -/
theorem scEncodeFrame : Obligations.ScEncodeFrame := by
  intro s t ops hx
  by_cases h9 : ops.length = 9
  · cases hx.symm.trans (exec_scEncode h9 s)
    exact ⟨rfl, rfl, rfl, rfl, rfl, rfl, rfl, rfl, rfl, rfl, ⟨_, rfl⟩, fun h => absurd h9 h⟩
  · cases hx.symm.trans (exec_scEncode_bad h9 s)
    exact ⟨rfl, rfl, rfl, rfl, rfl, rfl, rfl, rfl, rfl, rfl, ⟨_, rfl⟩, fun _ => rfl⟩

/-! ### One byte of the CRC (R154) -/

/-- What an inner step of R154 adds to the shifted register. -/
def crcFeedback (mix : Bool) : Byte := if mix then crcTaps else 0

theorem crcFeedback_xor : ∀ p q : Bool, crcFeedback (p ^^ q) = crcFeedback p ^^^ crcFeedback q := by decide

/-- An inner step of R154 on the XOR of the register and the rest of the byte. -/
def crcShift (x : Byte) : Byte := x >>> 1 ^^^ crcFeedback (x.getLsbD 0)

theorem crcShift_xor (x y : Byte) : crcShift (x ^^^ y) = crcShift x ^^^ crcShift y := by
  simp only [crcShift, BitVec.getLsbD_xor, BitVec.ushiftRight_xor_distrib, crcFeedback_xor]
  ac_rfl

/-- The top tap is set, so no register but 0 is shifted to 0. -/
theorem crcShift_eq_zero : ∀ x : Byte, crcShift x = 0 → x = 0 := by decide

theorem crcShift_injective : Function.Injective crcShift := fun x y h =>
  BitVec.xor_eq_zero_iff.1 (crcShift_eq_zero _ ((crcShift_xor x y).trans (BitVec.xor_eq_zero_iff.2 h)))

theorem crcShift_iterate_xor (n : Nat) (x y : Byte) : crcShift^[n] (x ^^^ y) = crcShift^[n] x ^^^ crcShift^[n] y := by
  induction n generalizing x y with
  | zero => rfl
  | succ n ih => simp only [Function.iterate_succ_apply, crcShift_xor, ih]

theorem crcBits_succ (n : Nat) (crc b : Byte) :
    crcBits (n + 1) crc b = crcBits n (crc >>> 1 ^^^ crcFeedback ((crc ^^^ b).getLsbD 0)) (b >>> 1) := by
  rw [crcBits, crcFeedback]
  split_ifs
  · rfl
  · exact congrArg (crcBits n · (b >>> 1)) BitVec.xor_zero.symm

/-- `n` inner steps act on the XOR of the register and the rest of the byte (R154). -/
theorem crcBits_xor_shiftRight (n : Nat) (crc b : Byte) : crcBits n crc b ^^^ b >>> n = crcShift^[n] (crc ^^^ b) := by
  induction n generalizing crc b with
  | zero => rfl
  | succ n ih =>
    rw [crcBits_succ, Nat.add_comm, BitVec.shiftRight_add, ih, Nat.add_comm, Function.iterate_succ_apply]
    congr 1
    rw [crcShift, BitVec.ushiftRight_xor_distrib]
    ac_rfl

/-- A byte moves the register by the eight steps on register XOR byte: the byte is used up (R154). -/
theorem crcByte_eq (crc b : Byte) : crcByte crc b = crcShift^[8] (crc ^^^ b) := by
  have hshift : b >>> 8 = 0 := BitVec.ushiftRight_eq_zero (le_refl 8)
  rw [← crcBits_xor_shiftRight, hshift]
  exact BitVec.xor_zero.symm

theorem crcByte_xor (crc crc' b b' : Byte) :
    crcByte (crc ^^^ crc') (b ^^^ b') = crcByte crc b ^^^ crcByte crc' b' := by
  simp only [crcByte_eq, ← crcShift_iterate_xor]
  congr 1
  ac_rfl

theorem crcByte_self (crc : Byte) : crcByte crc crc = 0 := by
  rw [crcByte_eq, BitVec.xor_self]
  rfl

theorem crcByte_register_injective (b : Byte) : Function.Injective fun crc => crcByte crc b := fun c c' h => by
  simp only [crcByte_eq] at h
  exact (BitVec.xor_left_inj b).1 (crcShift_injective.iterate 8 h)

theorem crcByte_injective (crc : Byte) : Function.Injective (crcByte crc) := fun b b' h => by
  simp only [crcByte_eq] at h
  exact (BitVec.xor_right_inj crc).1 (crcShift_injective.iterate 8 h)

/-! ### The checksum of a list (R155, R156) -/

/-- Settles O43: the last byte meets a register equal to it. -/
theorem crcResidueIsZero : Obligations.CrcResidueIsZero := by
  intro d
  rw [crc8, List.foldl_append]
  exact crcByte_self (crc8 d)

/-- Linearity from any two registers, for the induction; `crc8` starts both from the seed (R155). -/
theorem foldl_crcByte_xor {x y : List Byte} (h : x.length = y.length) (crc crc' : Byte) :
    (List.zipWith (· ^^^ ·) x y).foldl crcByte (crc ^^^ crc') = x.foldl crcByte crc ^^^ y.foldl crcByte crc' := by
  induction x generalizing y crc crc' with
  | nil =>
    cases List.eq_nil_of_length_eq_zero h.symm
    rfl
  | cons b x ih =>
    cases y with
    | nil => cases h
    | cons b' y =>
      rw [List.zipWith_cons_cons, List.foldl_cons, crcByte_xor]
      exact ih (Nat.succ.inj h) _ _

/-- Settles O44: the seed is 0, so the XOR of two seeds is the seed. -/
theorem crcIsLinear : Obligations.CrcIsLinear := fun _ _ h => foldl_crcByte_xor h crcSeed crcSeed

theorem oneBit_ne_zero : ∀ j < 8, (1 : Byte) <<< j ≠ 0 := by decide

theorem xor_oneBit_ne {j : Nat} (hj : j < 8) (b : Byte) : b ^^^ (1 <<< j) ≠ b := fun h =>
  oneBit_ne_zero j hj ((BitVec.xor_right_inj b).1 (h.trans BitVec.xor_zero.symm))

/-- A fold by a step that is injective in either argument tells apart lists that differ in one element. -/
theorem foldl_modify_ne {α β : Type} {f : α → β → α} (hacc : ∀ b, Function.Injective fun a => f a b)
    (helt : ∀ a, Function.Injective (f a)) {g : β → β} (hg : ∀ b, g b ≠ b) {l : List β} {i : Nat} (hi : i < l.length)
    (a : α) : (l.modify i g).foldl f a ≠ l.foldl f a := by
  have hfold (m : List β) : Function.Injective fun a => m.foldl f a := by
    induction m with
    | nil => exact fun _ _ h => h
    | cons b m ih => exact ih.comp (hacc b)
  obtain ⟨l₁, b, l₂, rfl, -, hmod⟩ := List.exists_of_modify g hi
  rw [hmod, List.foldl_append, List.foldl_append, List.foldl_cons, List.foldl_cons]
  exact fun h => hg b (helt _ (hfold l₂ h))

/-- Settles O45: under either setting the checksum is a fold whose step is injective in the register and in the byte. -/
theorem singleBitFlipDetected : Obligations.SingleBitFlipDetected := by
  intro k d i j hi hj
  cases k with
  | crc8 => exact foldl_modify_ne crcByte_register_injective crcByte_injective (xor_oneBit_ne hj) hi crcSeed
  | add8 => exact foldl_modify_ne add_left_injective add_right_injective (xor_oneBit_ne hj) hi 0

/-! ### The bytes of a frame, read back (R53, R157) -/

/-- The bytes of a word and the word of four bytes are inverse to each other (R54); the other half is next. -/
theorem wordOfBytes_wordByte (x : Word) :
    wordOfBytes (wordByte x 0) (wordByte x 1) (wordByte x 2) (wordByte x 3) = x := by
  unfold wordOfBytes wordByte
  iterate 3 rw [BitVec.extractLsb'_append_extractLsb'_eq_extractLsb' (by decide)]
  exact BitVec.extractLsb'_eq_self

theorem wordByte_wordOfBytes (b : Fin 4 → Byte) (j : Fin 4) :
    wordByte (wordOfBytes (b 0) (b 1) (b 2) (b 3)) j.val = b j := by
  unfold wordOfBytes wordByte
  fin_cases j
  · exact BitVec.extractLsb'_append_eq_right
  · rw [BitVec.extractLsb'_append_eq_of_le (by decide)]
    exact BitVec.extractLsb'_append_eq_right
  · iterate 2 rw [BitVec.extractLsb'_append_eq_of_le (by decide)]
    exact BitVec.extractLsb'_append_eq_right
  · iterate 2 rw [BitVec.extractLsb'_append_eq_of_le (by decide)]
    exact BitVec.extractLsb'_append_eq_left

/-- A payload word is `x` when its bytes are those of `x` (R53). -/
theorem payloadWord_eq_iff (b : List Byte) (k : Channel) (x : Word) :
    payloadWord b k = x ↔ ∀ j : Fin 4, b.getD (1 + 4 * k.val + j.val) 0 = wordByte x j.val := by
  constructor
  · rintro rfl j
    exact (wordByte_wordOfBytes (fun j => b.getD (1 + 4 * k.val + j.val) 0) j).symm
  · intro h
    have hbytes : payloadWord b k = wordOfBytes (wordByte x 0) (wordByte x 1) (wordByte x 2) (wordByte x 3) :=
      congr (congr (congr (congrArg wordOfBytes (h 0)) (h 1)) (h 2)) (h 3)
    exact hbytes.trans (wordOfBytes_wordByte x)

theorem perChannel_eq_iff {α : Type} (g : Channel → α) (f : Vector α 9) :
    perChannel g = f ↔ ∀ k : Channel, g k = f[k.val] := by
  constructor
  · rintro rfl k
    exact (perChannel_get g k).symm
  · exact fun h => Vector.ext fun i hi => (perChannel_get g ⟨i, hi⟩).trans (h ⟨i, hi⟩)

/-- A position of the frame's body is that of the start marker or of a payload byte (R53). -/
theorem frame_position {i : Nat} (h : i < 37) : i = 0 ∨ ∃ (k : Channel) (j : Fin 4), i = 1 + 4 * k.val + j.val := by
  cases i with
  | zero => exact .inl rfl
  | succ i => exact .inr ⟨⟨i / 4, by omega⟩, ⟨i % 4, by omega⟩, by dsimp only; omega⟩

/-- A list is the frame of `f` when its length, start marker and checksum are right and its payload bytes are those of the
words of `f` (R53, R151). -/
theorem eq_frameList_iff (c : Checksum) (b : List Byte) (f : Vector Word 9) :
    b = frameList c f ↔ b.length = 38 ∧ b.getD 0 0 = startMarker ∧ cksum c (b.take 37) = b.getD 37 0 ∧
      ∀ (k : Channel) (j : Fin 4), b.getD (1 + 4 * k.val + j.val) 0 = wordByte f[k.val] j.val := by
  constructor
  · rintro rfl
    exact ⟨rfl, rfl, congrArg (cksum c) (take_frame c f), getD_frame c f⟩
  · rintro ⟨hlen, hstart, hsum, hpayload⟩
    have hbyte {i : Nat} (hi : i < 37) : b.getD i 0 = (frameBody f).getD i 0 := by
      rcases frame_position hi with rfl | ⟨k, j, rfl⟩
      · exact hstart
      · rw [hpayload, List.getD_eq_getElem?_getD (l := frameBody f), getElem?_frameBody, Option.getD_some]
    have hbody : b.take 37 = frameBody f :=
      List.ext_getElem (by rw [List.length_take, hlen]; rfl) fun i _ hi => by
        rw [List.getElem_take, ← List.getD_eq_getElem b 0, hbyte hi, List.getD_eq_getElem]
    have hlast : 37 < b.length := by omega
    calc b = b.take 37 ++ [b[37]] := by rw [List.take_append_getElem, List.take_of_length_le hlen.le]
      _ = frameBody f ++ [cksum c (frameBody f)] := by rw [← List.getD_eq_getElem b 0, ← hsum, hbody]

/-! ### Decode (R157) -/

/-- The four outcomes of Decode, in the order of its checks (R157). -/
theorem decodeFrame_cases (c : Checksum) (b : List Byte) :
    (b.length ≠ 38 ∧ decodeFrame c b = .error .badLength) ∨
    (b.length = 38 ∧ b.getD 0 0 ≠ startMarker ∧ decodeFrame c b = .error .badStart) ∨
    (b.length = 38 ∧ b.getD 0 0 = startMarker ∧ cksum c (b.take 37) ≠ b.getD 37 0 ∧
      decodeFrame c b = .error .checksumMismatch) ∨
    (b.length = 38 ∧ b.getD 0 0 = startMarker ∧ cksum c (b.take 37) = b.getD 37 0 ∧
      decodeFrame c b = .ok (perChannel (payloadWord b))) := by
  unfold decodeFrame
  split_ifs with hlen hstart hsum
  · exact .inl ⟨hlen, rfl⟩
  · exact .inr (.inl ⟨not_not.1 hlen, hstart, rfl⟩)
  · exact .inr (.inr (.inl ⟨not_not.1 hlen, not_not.1 hstart, hsum, rfl⟩))
  · exact .inr (.inr (.inr ⟨not_not.1 hlen, not_not.1 hstart, not_not.1 hsum, rfl⟩))

/-- Settles O41: accepted is a list with the length, start marker and checksum of a frame, and the payload words of such a
list are `f` when its payload bytes are those of `f`. -/
theorem decodeAcceptsExactlyFrames : Obligations.DecodeAcceptsExactlyFrames := by
  intro c b f
  simp only [eq_frameList_iff, ← payloadWord_eq_iff, ← perChannel_eq_iff]
  rcases decodeFrame_cases c b with ⟨hlen, h⟩ | ⟨hlen, hstart, h⟩ | ⟨hlen, hstart, hsum, h⟩ | ⟨hlen, hstart, hsum, h⟩
  · simp only [h, hlen, reduceCtorEq, false_and]
  · simp only [h, hstart, reduceCtorEq, false_and, and_false]
  · simp only [h, hsum, reduceCtorEq, false_and, and_false]
  · simp only [h, hlen, hstart, hsum, Except.ok.injEq, true_and]

theorem head?_eq_startMarker_iff (b : List Byte) : b.head? = some 0xFF ↔ b.getD 0 0 = startMarker := by
  cases b with
  | nil => decide
  | cons x b => exact Option.some_inj

theorem getLast?_eq_some_iff_getD {b : List Byte} (h : b.length = 38) (x : Byte) :
    b.getLast? = some x ↔ x = b.getD 37 0 := by
  have hlast : 37 < b.length := by omega
  rw [List.getLast?_eq_getElem?, h, List.getElem?_eq_getElem hlast, List.getD_eq_getElem _ _ hlast, Option.some_inj,
    eq_comm]

/-- Settles O42: the outcomes exclude each other, and the first byte and the last of 38 are bytes 0 and 37. -/
theorem decodeErrorOrder : Obligations.DecodeErrorOrder := by
  intro c b
  simp only [ne_eq, head?_eq_startMarker_iff]
  rcases decodeFrame_cases c b with ⟨hlen, h⟩ | ⟨hlen, hstart, h⟩ | ⟨hlen, hstart, hsum, h⟩ | ⟨hlen, hstart, hsum, h⟩
  · simp [h, hlen]
  · simp only [h, hlen, hstart, Except.error.injEq, reduceCtorEq, not_true, not_false_iff, false_and, and_false, and_self]
  · simp only [h, hlen, hstart, getLast?_eq_some_iff_getD hlen, hsum, Except.error.injEq, reduceCtorEq, not_true,
      not_false_iff, and_false, and_self]
  · simp only [h, hlen, hstart, getLast?_eq_some_iff_getD hlen, hsum, reduceCtorEq, not_true, and_false, and_self]

end Sys2Proof.Machine
end

section
/-! The obligations about the frame transmitter (43_frame_transmitter.md): how a send starts (R171), what its chunks are
(R172), what its end says (R176), and what it leaves alone while it runs (R61, R178). -/

namespace Sys2Proof.Machine

open Sys2Proof

/-! ### The start of a send (R171) -/

/-- FT.SEND with a chunk size and a waiting frame starts a send and writes its first chunk (R13, R171). -/
theorem exec_ftSend_starts {s : State} {m : BitVec 16} (hm : m ≠ 0) (hv : s.frmValid = true) :
    exec (.ftSend m) s = .next (s.startSend m.toNat).chunkWrite := by
  have hm0 : m.toNat ≠ 0 := Nat.ne_of_gt (toNat_pos_of_ne_zero hm)
  rw [exec_ftSend, if_neg hm0, if_neg (by simp [hv])]

theorem SendState.start_inRange {m : BitVec 16} (hm : m ≠ 0) : (SendState.start m.toNat).InRange :=
  ⟨Nat.zero_le _, toNat_pos_of_ne_zero hm, Nat.le_of_lt_succ m.isLt, Nat.zero_le _, Nat.zero_le _⟩

/-- Settles O47: the start is a chunk write, and a chunk write is what `WritesChunk` says. -/
theorem ftSendStarts : Obligations.FtSendStarts := fun s m hm hv =>
  ⟨_, exec_ftSend_starts hm hv, writesChunk_chunkWrite (s.startSend m.toNat)⟩

/-! ### What a send in flight leaves alone (R61, R173, R178) -/

/-- Settles O53: a step of a send waits or writes a chunk, and neither touches more than the send. -/
theorem nothingElseDuringSend : Obligations.NothingElseDuringSend := by
  intro s hr ha
  refine ⟨⟨_, step_send hr ha, ?_⟩, fun ho => ?_⟩
  · rcases sendStep_cases s.sampleTaken with ⟨-, h⟩ | ⟨-, h⟩ <;> rw [h]
    · exact ⟨rfl, rfl, rfl, rfl, rfl⟩
    · simp
  · rw [step_send hr ha, sendStep_waits (s := s.sampleTaken) ho]
    rfl

/-! ### The chunks of a send (R172) -/

theorem chunkBytes_eq_take (f : Vector Byte 38) (m i : Nat) : chunkBytes f m i = (f.toList.drop (i * m)).take m := by
  have hrest : (f.toList.drop (i * m)).length = 38 - i * m := by simp
  rw [chunkBytes, ← hrest, ← List.take_eq_take_min]

theorem chunkBytes_length (f : Vector Byte 38) (m i : Nat) : (chunkBytes f m i).length = min m (38 - i * m) := by
  simp [chunkBytes_eq_take]

/-- The first `n` chunks joined in order are the first `n * m` bytes of the frame (R172). -/
theorem flatMap_chunkBytes (f : Vector Byte 38) (m n : Nat) :
    (List.range n).flatMap (chunkBytes f m) = f.toList.take (n * m) := by
  induction n with
  | zero => simp
  | succ n ih =>
    rw [List.range_succ, List.flatMap_append, ih, List.flatMap_singleton, chunkBytes_eq_take, Nat.succ_mul, List.take_add]

/-- The number of chunks is that of the one which starts inside the frame and reaches its end, counted from 1 (R172). -/
theorem chunkCount_eq_succ_iff {m k : Nat} (hm : 1 ≤ m) : chunkCount m = k + 1 ↔ k * m < 38 ∧ 38 ≤ (k + 1) * m := by
  rw [← lt_chunkCount_iff hm, ← Nat.not_lt, ← lt_chunkCount_iff hm]
  omega

/-- A frame has at least one chunk (R172). -/
theorem exists_chunkCount_eq_succ {m : Nat} (hm : 1 ≤ m) : ∃ k, chunkCount m = k + 1 :=
  Nat.exists_eq_add_one.2 ((lt_chunkCount_iff hm).2 (by simp))

/-- Settles O49: the chunks joined are as many bytes of the frame as they cover, and together they cover it. -/
theorem chunksJoinToFrame : Obligations.ChunksJoinToFrame := by
  intro f m hm
  obtain ⟨k, hk⟩ := exists_chunkCount_eq_succ hm
  obtain ⟨hstart, hend⟩ := (chunkCount_eq_succ_iff hm).1 hk
  have hlast : k * m + m = (k + 1) * m := (Nat.succ_mul k m).symm
  refine ⟨?_, fun i hi => ?_, ?_⟩
  · rw [flatMap_chunkBytes, hk]
    exact List.take_of_length_le (by simpa using hend)
  · have hnext : (i + 1) * m < 38 := (lt_chunkCount_iff hm).1 hi
    rw [Nat.succ_mul] at hnext
    rw [chunkBytes_length]
    omega
  · rw [hk, Nat.add_sub_cancel, chunkBytes_length]
    omega

/-! ### The end of a send (R174, R176) -/

/-- What the sequencer of a send that has ended says (R174, R176): without a failure every chunk was accepted, with one
not every byte was; every chunk was written unless the send was aborted, and then all before the last were accepted. -/
def SendState.EndsAsSaid (f : SendState) (p : FailPolicy) : Prop :=
  (f.failed = false → f.ok = 38 ∧ f.cnt = chunkCount f.max) ∧
  (f.failed = true → f.ok < 38 ∧ (p = .abort → f.ok = (f.cnt - 1) * f.max) ∧ (p = .goOn → f.cnt = chunkCount f.max))

/-- The chunk of a running send that reaches the frame's end is the last of R172's. -/
theorem SendState.chunkCount_eq_of_reaches {f : SendState} {p : FailPolicy} (hr : f.InRange) (hrun : f.Running p)
    (hend : 38 ≤ f.off + f.len) : chunkCount f.max = f.cnt + 1 := by
  obtain ⟨-, hmax, -⟩ := hr
  obtain ⟨hoff, hmul, -⟩ := hrun
  have hlen := f.len_le_max
  rw [chunkCount_eq_succ_iff hmax, Nat.succ_mul]
  omega

/-- The answer that ends a running send: a success ends it at the frame's end, a failure there or by abort. -/
theorem SendState.answered_endsAsSaid {f : SendState} {p : FailPolicy} {a : TxAnswer} (hr : f.InRange)
    (hrun : f.Running p) (he : f.ends p a = true) : (f.answered p a).EndsAsSaid p := by
  have hcount := SendState.chunkCount_eq_of_reaches hr hrun
  obtain ⟨hoff, hmul, hok, hfail, habort⟩ := hrun
  rw [SendState.ends_iff] at he
  cases a with
  | success =>
    have hreach : 38 ≤ f.off + f.len := by simpa using he
    have hfull := SendState.off_add_len hoff.le hreach
    refine ⟨fun h => ⟨?_, (hcount hreach).symm⟩, fun h => ⟨?_, fun hp => ?_, fun _ => (hcount hreach).symm⟩⟩
    · have hall : ¬f.ok < f.off := mt hfail.2 (by simpa using h)
      rw [SendState.answered_ok_success]
      omega
    · have hmissing : f.ok < f.off := hfail.1 h
      rw [SendState.answered_ok_success]
      omega
    · exact absurd ((habort hp).symm.trans h) (by decide)
  | failure =>
    refine ⟨nofun, fun _ => ⟨hok.trans_lt hoff, fun hp => ?_, fun hp => ?_⟩⟩
    · have hall : ¬f.ok < f.off := mt hfail.2 (by simp [habort hp])
      simp only [SendState.answered_ok_failure, SendState.answered_cnt, SendState.answered_max, Nat.add_sub_cancel]
      omega
    · exact (hcount (by simpa [hp] using he)).symm

/-- A chunk write of a running send that ends it: the sequencer says what R176 does, and the response carries it. -/
theorem chunkWrite_endsAsSaid {s : State} (hr : s.ft.InRange) (hrun : s.ft.Running s.cfg.failPolicy)
    (ha : s.ft.active = true) (hend : s.chunkWrite.ft.active = false) :
    s.chunkWrite.ft.EndsAsSaid s.cfg.failPolicy ∧
      s.chunkWrite.rspLog = s.rspLog ++ [responsePacket 0x30 (sendStatus s.chunkWrite.ft.failed)
        [BitVec.ofNat 32 s.chunkWrite.ft.ok, BitVec.ofNat 32 s.chunkWrite.ft.cnt]] := by
  rcases s.chunkWrite_cases with ⟨-, h⟩ | ⟨a, -, -, h⟩ | ⟨a, -, he, h⟩ <;> rw [h] at hend ⊢
  · exact absurd (ha.symm.trans hend) (by decide)
  · exact absurd (ha.symm.trans hend) (by decide)
  · exact ⟨SendState.answered_endsAsSaid hr hrun he, rfl⟩

/-- Settles O52: the step that ends the send is a chunk write of a running send, one in flight or one just started. -/
theorem sendStatusMeaning : Obligations.SendStatusMeaning := by
  intro s t hinv hstep hend
  obtain ⟨-, -, hrange, hsend, -⟩ := hinv
  suffices h : t.ft.EndsAsSaid s.cfg.failPolicy ∧ t.rspLog = s.rspLog ++
      [responsePacket 0x30 (sendStatus t.ft.failed) [BitVec.ofNat 32 t.ft.ok, BitVec.ofNat 32 t.ft.cnt]] by
    obtain ⟨⟨hok, hfailed⟩, hrsp⟩ := h
    exact ⟨hok, hfailed, hrsp⟩
  rcases hstep with ⟨hr, ha, hstep⟩ | ⟨m, hm, hv, hexec⟩
  · cases (step_send hr ha).symm.trans hstep
    rcases sendStep_cases s.sampleTaken with ⟨-, h⟩ | ⟨-, h⟩ <;> rw [h] at hend ⊢
    · exact absurd (ha.symm.trans hend) (by decide)
    · exact chunkWrite_endsAsSaid (s := s.sampleTaken) hrange (hsend ha).2 ha hend
  · cases (exec_ftSend_starts hm hv).symm.trans hexec
    exact chunkWrite_endsAsSaid (s := s.startSend m.toNat) (SendState.start_inRange hm) (SendState.start_running _ _) rfl
      hend

end Sys2Proof.Machine
end

section
/-! The obligations about what is refused (60_exceptions.md), by the decoder (R82, R204) or by FT.SEND (R196, R197), and
about an idle block with nothing to do (R211). -/

namespace Sys2Proof.Machine

open Sys2Proof

/-! ### A packet the decoder refuses (R82, R204) -/

/-- A packet the decoder refuses is rejected with the echoed `op` and the decoder's status. -/
theorem runPacket_refused {p : Packet} {e : Status} (hd : decode p = .error e) (s : State) :
    runPacket p s = .next (s.reject (opField p.header) e) := by
  simp only [runPacket, hd]

/-- Settles O10: the step runs the packet, which is rejected, and a rejection is one response without data. -/
theorem rejectionChangesNothing : Obligations.RejectionChangesNothing := by
  intro s p rest e hr ha hc hd
  refine ⟨responsePacket (opField p.header) e [], ?_, opField_response .., statusField_response .., cntField_response ..,
    body_response ..⟩
  rw [step_runPacket hr ha hc, runPacket_refused hd]
  rfl

/-! ### An idle block without a command (R211) -/

/-- Settles O14, by the cases of a step: the others are of a reset, of a send in flight and of a packet at the CMD port. -/
theorem idleKeepsState : Obligations.IdleKeepsState := by
  intro s hr ha hc
  rcases step_cases s with ⟨hr', -⟩ | ⟨-, ha', -⟩ | ⟨-, -, -, h⟩ | ⟨p, rest, -, -, hc', -⟩
  · exact absurd (hr.symm.trans hr') (by decide)
  · exact absurd (ha.symm.trans ha') (by decide)
  · exact h
  · cases hc.symm.trans hc'

/-! ### What FT.SEND refuses (R196, R197) -/

/-- `max = 0` is checked before the frame's flag (R196). -/
theorem exec_ftSend_zero (s : State) : exec (.ftSend 0) s = .next (s.reject Opcode.ftSend.byte .eChunk0) :=
  (exec_ftSend 0 s).trans (if_pos rfl)

theorem exec_ftSend_noFrame {s : State} {m : BitVec 16} (hm : m ≠ 0) (hv : s.frmValid = false) :
    exec (.ftSend m) s = .next (s.reject Opcode.ftSend.byte .eNoFrame) := by
  have hm0 : m.toNat ≠ 0 := Nat.ne_of_gt (toNat_pos_of_ne_zero hm)
  rw [exec_ftSend, if_neg hm0, if_pos hv]

/-- Settles O46, by the two checks of FT.SEND. -/
theorem ftSendRejections : Obligations.FtSendRejections := by
  intro s m
  refine ⟨?_, fun hm hv => exec_ftSend_noFrame hm hv⟩
  rintro rfl
  exact exec_ftSend_zero s

end Sys2Proof.Machine
end

section
/-! The obligations of 70_reset_and_hazards.md: what a reset event leaves (R220, R222), and how long MF.FILTER can take,
counted in draws (R236). -/

namespace Sys2Proof.Machine

open Sys2Proof

/-! ### The draws of MF.FILTER (R137, R236) -/

/-- The selection over one window makes 1 to `|window|` draws (R137). -/
theorem genAfterSelect_draws (e : EvenRank) {window : List Cell} (h : 1 ≤ window.length) (g : Gen) :
    (genAfterSelect e window g).drawCtr ∈ Set.Icc (g.drawCtr + 1) (g.drawCtr + window.length) := by
  obtain ⟨res, hres⟩ := exists_selectEnds Config.freeDraw (rank_lt e h) g
  rw [genAfterSelect, hres.ends _ le_rfl]
  exact ⟨hres.draws, hres.draws_le⟩

/-- Selections over the windows of the channels `ks` in turn, each of 1 to `m` elements. -/
theorem foldl_genAfterSelect_draws (e : EvenRank) {window : Channel → List Cell} {m : Nat}
    (hwin : ∀ k, 1 ≤ (window k).length ∧ (window k).length ≤ m) (ks : List Channel) (g : Gen) :
    (ks.foldl (fun g k => genAfterSelect e (window k) g) g).drawCtr ∈
      Set.Icc (g.drawCtr + ks.length) (g.drawCtr + ks.length * m) := by
  induction ks generalizing g with
  | nil => simp
  | cons k ks ih =>
    obtain ⟨hpos, hle⟩ := hwin k
    obtain ⟨hlow, hhigh⟩ := genAfterSelect_draws e hpos g
    obtain ⟨hlow', hhigh'⟩ := ih (genAfterSelect e (window k) g)
    rw [List.foldl_cons, List.length_cons, Nat.succ_mul]
    constructor <;> omega

/-- The nine selections of MF.FILTER, when every ring holds 1 to `m` elements (R131, R236). -/
theorem State.genAfterFilter_draws {s : State} {m : Nat}
    (hwin : ∀ k, 1 ≤ (s.contents k).length ∧ (s.contents k).length ≤ m) :
    s.genAfterFilter.drawCtr ∈ Set.Icc (s.gen.drawCtr + 9) (s.gen.drawCtr + 9 * m) :=
  foldl_genAfterSelect_draws s.cfg.evenRank hwin channels s.gen

/-- Settles O34: the selections run over the rings the puts leave, each of 1 to `W` elements. -/
theorem mfFilterDrawBound : Obligations.MfFilterDrawBound := by
  intro s ops h9 hinv
  obtain ⟨t, hx, ht⟩ := exec_mfFilter_filters h9 s
  have hwin (k : Channel) : 1 ≤ (t.contents k).length ∧ (t.contents k).length ≤ s.w :=
    ⟨ht.length_pos (hinv k), ht.w ▸ State.contents_length_le (ht.inv (hinv k))⟩
  cases hx.symm.trans (exec_mfFilter h9 s)
  exact ⟨_, hx, State.genAfterFilter_draws (s := s.pushSample _) hwin⟩

/-! ### The reset event (R220, R222) -/

/-- A sampled reset takes the place of the step (R220). -/
theorem step_reset {s : State} (hr : s.resetSampled = true) : step s = .next s.sampleTaken.resetEvent := if_pos hr

/-- Every ring is empty after a reset event (R38). -/
theorem State.contents_resetEvent (s : State) (k : Channel) : s.resetEvent.contents k = [] := by
  rw [State.contents_eq, State.ring_resetEvent, State.w_resetEvent, Ring.contents_init]

/-- Settles O16: the step is the reset event, which leaves every element at its reset value and records what it abandons. -/
theorem resetEventResult : Obligations.ResetEventResult := by
  intro s hr
  refine ⟨s.sampleTaken.resetEvent, step_reset hr, rfl, fun k => ?_, rfl, rfl, rfl, rfl, rfl, rfl, rfl, rfl,
    fun ⟨ha, ho⟩ => resetEvent_offered (s := s.sampleTaken) ha ho, resetEvent_notOffered (s := s.sampleTaken)⟩
  rw [State.ring_resetEvent]
  exact ⟨rfl, rfl, rfl, State.contents_resetEvent _ k⟩

end Sys2Proof.Machine
end

section
/-! The obligations of the model's own choices: a ring-buffer command run directly with a `ch` no packet decodes to (log
entry 21), and a step that never stops (log entry 20). -/

namespace Sys2Proof.Machine

open Sys2Proof

/-- Settles O11: each of the eight commands is rejected, and a rejection is one response. -/
theorem badChannelChangesNothing : Obligations.BadChannelChangesNothing :=
  fun s _ v hch i hi => exec_bad_channel s hch v i hi

/-- Settles O12, by the cases of a step: only the last one runs a command, and every command answers. -/
theorem everyStepAnswers : Obligations.EveryStepAnswers := by
  intro s
  rcases step_cases s with ⟨-, hreset⟩ | ⟨-, -, hsend⟩ | ⟨-, -, -, hidle⟩ |
    ⟨p, rest, -, -, -, ⟨e, -, hrejected⟩ | ⟨i, -, hruns⟩⟩
  · exact ⟨_, hreset⟩
  · exact ⟨_, hsend⟩
  · exact ⟨_, hidle⟩
  · exact ⟨_, hrejected⟩
  · obtain ⟨t, ht, -⟩ := exec_answer i { s.sampleTaken with cmdPort := rest }
    exact ⟨t, hruns.trans ht⟩

end Sys2Proof.Machine
end
